-- ==== Sys2Proof/Word.lean ====
section
/-! DEFINITION. The word types of the CHIP-8 core (spec 00_scope R6, R8, R9): every value is unsigned. -/

namespace Sys2Proof

/-- One memory byte or one general register (R6 `WREG`, R50). -/
abbrev Byte := BitVec 8

/-- One instruction word, `I`, `PC` or one call-stack entry (R6 `WI`, `WPC`, R26). -/
abbrev Word := BitVec 16

/-- A 12-bit address field `nnn` (R84). -/
abbrev Addr12 := BitVec 12

/-- A 4-bit field of the instruction word (R84). -/
abbrev Nibble := BitVec 4

/-- The number of a general register, 0 to 15 (R21); 15 is `VF`. -/
abbrev RegIdx := Fin 16

end Sys2Proof
end

