-- ==== Sys2Proof/Config.lean ====
section
/-! DEFINITION. What is fixed for the machine (00_scope R6) and its one free value, the random byte. -/

namespace Sys2Proof

/-- `PROGBASE`: where a program is loaded and where `PC` starts (R6, R56). -/
def Config.progBase : Nat := 0x200

/-- `MAXIMAGE`: the longest program image in bytes (R6, R272). -/
def Config.maxImage : Nat := 3584

/-- The random source of CXNN, a FREE VALUE: byte number `k` of an arbitrary stream (R12, R35, R151, R251).
It has no body, so nothing can be proved of its values; `State.draws` says which byte comes next.
DESIGN CHOICE (log 2): the form in which the draw is free. -/
opaque Config.rand8 : Nat → Byte

end Sys2Proof
end

