-- ==== Sys2Proof/Syntax.lean ====
section
/-! DEFINITION. The 32 instructions of the opcode table (30_encoding R86), one constructor per row. -/

namespace Sys2Proof

/-- The instructions of R86, in the table's order. Register numbers are `RegIdx`, immediates are the bit fields
of R84 at their own width, so every term is an instruction that some word encodes. -/
inductive Instr where
  /-- 00E0 -/
  | cls
  /-- 00EE -/
  | ret
  /-- 1NNN -/
  | jp (nnn : Addr12)
  /-- 2NNN -/
  | call (nnn : Addr12)
  /-- 3XNN -/
  | seImm (x : RegIdx) (nn : Byte)
  /-- 4XNN -/
  | sneImm (x : RegIdx) (nn : Byte)
  /-- 5XY0 -/
  | seReg (x y : RegIdx)
  /-- 6XNN -/
  | ldImm (x : RegIdx) (nn : Byte)
  /-- 7XNN -/
  | addImm (x : RegIdx) (nn : Byte)
  /-- 8XY0 -/
  | ldReg (x y : RegIdx)
  /-- 8XY1 -/
  | or (x y : RegIdx)
  /-- 8XY2 -/
  | and (x y : RegIdx)
  /-- 8XY3 -/
  | xor (x y : RegIdx)
  /-- 8XY4 -/
  | addReg (x y : RegIdx)
  /-- 8XY5 -/
  | sub (x y : RegIdx)
  /-- 8XY6; `y` is encoded and ignored (R89) -/
  | shr (x y : RegIdx)
  /-- 8XYE; `y` is encoded and ignored (R89) -/
  | shl (x y : RegIdx)
  /-- 9XY0 -/
  | sneReg (x y : RegIdx)
  /-- ANNN -/
  | ldI (nnn : Addr12)
  /-- CXNN -/
  | rnd (x : RegIdx) (nn : Byte)
  /-- DXYN -/
  | drw (x y : RegIdx) (n : Nibble)
  /-- EX9E -/
  | skp (x : RegIdx)
  /-- EXA1 -/
  | sknp (x : RegIdx)
  /-- FX07 -/
  | ldVxDt (x : RegIdx)
  /-- FX0A -/
  | ldVxK (x : RegIdx)
  /-- FX15 -/
  | ldDtVx (x : RegIdx)
  /-- FX18 -/
  | ldStVx (x : RegIdx)
  /-- FX1E -/
  | addI (x : RegIdx)
  /-- FX29 -/
  | ldF (x : RegIdx)
  /-- FX33 -/
  | ldB (x : RegIdx)
  /-- FX55 -/
  | ldMemI (x : RegIdx)
  /-- FX65 -/
  | ldVxMemI (x : RegIdx)
  deriving DecidableEq, Repr

end Sys2Proof
end

