-- ==== Sys2Proof/WellFormed.lean ====
section
/-! DEFINITION. Range checks on numbers that come from outside: assembler operands (30_encoding R90), key indices
of the host's setters (60_exceptions R247) and program images (70_reset R272), and well-formed instructions. -/

namespace Sys2Proof

/-- A register number of the assembler syntax: `V0` to `VF` (R90). -/
def WellFormed.reg (k : Nat) : Bool := k < 16

/-- `n` must be 0 to 0xF (R90). -/
def WellFormed.imm4 (k : Nat) : Bool := k < 0x10

/-- `nn` must be 0 to 0xFF (R90). -/
def WellFormed.imm8 (k : Nat) : Bool := k < 0x100

/-- `nnn` must be 0 to 0xFFF (R90). -/
def WellFormed.addr12 (k : Nat) : Bool := k < 0x1000

/-- A data word `DW 0xhhhh` (R90). -/
def WellFormed.dataWord (k : Nat) : Bool := k < 0x10000

/-- A key setter's index is 0 to 15 (R247). -/
def WellFormed.key (k : Nat) : Bool := k < 16

/-- A program image fits above 0x200 (R6 `MAXIMAGE`, R272). -/
def WellFormed.image (image : List Byte) : Bool := image.length ≤ Config.maxImage

/-- An instruction's operands are in the ranges of R84. The operand types already say so: this check refuses no
`Instr`, and the checks above are what refuses an ill-formed operand before an `Instr` is built. -/
def Instr.wf : Instr → Bool
  | .cls | .ret => true
  | .jp nnn | .call nnn | .ldI nnn => WellFormed.addr12 nnn.toNat
  | .seImm x nn | .sneImm x nn | .ldImm x nn | .addImm x nn | .rnd x nn =>
    WellFormed.reg x.val && WellFormed.imm8 nn.toNat
  | .seReg x y | .ldReg x y | .or x y | .and x y | .xor x y | .addReg x y | .sub x y | .shr x y | .shl x y
  | .sneReg x y => WellFormed.reg x.val && WellFormed.reg y.val
  | .drw x y n => WellFormed.reg x.val && WellFormed.reg y.val && WellFormed.imm4 n.toNat
  | .skp x | .sknp x | .ldVxDt x | .ldVxK x | .ldDtVx x | .ldStVx x | .addI x | .ldF x | .ldB x | .ldMemI x
  | .ldVxMemI x => WellFormed.reg x.val

end Sys2Proof
end

