-- ==== Sys2Proof/Decode.lean ====
section
/-! DEFINITION. The one instruction format (30_encoding R80, R81), its fields (R84), the opcode map (R86), the
decoder (R87, R88), total on any bytes, and the encoder. -/

namespace Sys2Proof

/-- The high nibble of an instruction word, `op[15:12]` (R81). -/
def fieldFamily (w : Word) : Nibble := w.extractLsb' 12 4

/-- `x = op[11:8]`, a register number (R84). -/
def fieldX (w : Word) : RegIdx := (w.extractLsb' 8 4).toFin

/-- `y = op[7:4]`, a register number (R84). -/
def fieldY (w : Word) : RegIdx := (w.extractLsb' 4 4).toFin

/-- `n = op[3:0]` (R84). -/
def fieldN (w : Word) : Nibble := w.extractLsb' 0 4

/-- `nn = op[7:0]` (R84). -/
def fieldNN (w : Word) : Byte := w.extractLsb' 0 8

/-- `nnn = op[11:0]` (R84). -/
def fieldNNN (w : Word) : Addr12 := w.extractLsb' 0 12

/-- The 4 bits that name a register in a word (R84). -/
def regBits (x : RegIdx) : Nibble := BitVec.ofFin x

/-- The two bytes of a word as they lie in memory: the high byte at the lower address (20_memory R52). -/
def wordBytes (w : Word) : List Byte := [w.extractLsb' 8 8, w.extractLsb' 0 8]

/-- The word that two consecutive bytes make, the lower address first (R52). -/
def wordOfBytes (hi lo : Byte) : Word := hi ++ lo

/-- A row of the opcode map: a word `op` is the instruction of the row when `op & mask = match` (R86). -/
structure OpcodeRow where
  mnemonic : String
  mask     : Word
  value    : Word
  deriving DecidableEq, Repr

/-- Rows 00E0 to 7XNN of R86. -/
def opcodeTableLow : List OpcodeRow :=
  [ ⟨"CLS", 0xFFFF#16, 0x00E0#16⟩, ⟨"RET", 0xFFFF#16, 0x00EE#16⟩, ⟨"JP", 0xF000#16, 0x1000#16⟩,
    ⟨"CALL", 0xF000#16, 0x2000#16⟩, ⟨"SE__imm", 0xF000#16, 0x3000#16⟩, ⟨"SNE__imm", 0xF000#16, 0x4000#16⟩,
    ⟨"SE__reg", 0xF00F#16, 0x5000#16⟩, ⟨"LD__imm", 0xF000#16, 0x6000#16⟩, ⟨"ADD__imm", 0xF000#16, 0x7000#16⟩ ]

/-- Rows 8XY0 to DXYN of R86. -/
def opcodeTableMid : List OpcodeRow :=
  [ ⟨"LD__reg", 0xF00F#16, 0x8000#16⟩, ⟨"OR", 0xF00F#16, 0x8001#16⟩, ⟨"AND", 0xF00F#16, 0x8002#16⟩,
    ⟨"XOR", 0xF00F#16, 0x8003#16⟩, ⟨"ADD__reg", 0xF00F#16, 0x8004#16⟩, ⟨"SUB", 0xF00F#16, 0x8005#16⟩,
    ⟨"SHR", 0xF00F#16, 0x8006#16⟩, ⟨"SHL", 0xF00F#16, 0x800E#16⟩, ⟨"SNE__reg", 0xF00F#16, 0x9000#16⟩,
    ⟨"LD_I", 0xF000#16, 0xA000#16⟩, ⟨"RND", 0xF000#16, 0xC000#16⟩, ⟨"DRW", 0xF000#16, 0xD000#16⟩ ]

/-- Rows EX9E to FX65 of R86. -/
def opcodeTableHigh : List OpcodeRow :=
  [ ⟨"SKP", 0xF0FF#16, 0xE09E#16⟩, ⟨"SKNP", 0xF0FF#16, 0xE0A1#16⟩, ⟨"LD_Vx__DT", 0xF0FF#16, 0xF007#16⟩,
    ⟨"LD_Vx__K", 0xF0FF#16, 0xF00A#16⟩, ⟨"LD_DT__Vx", 0xF0FF#16, 0xF015#16⟩, ⟨"LD_ST__Vx", 0xF0FF#16, 0xF018#16⟩,
    ⟨"ADD_I", 0xF0FF#16, 0xF01E#16⟩, ⟨"LD_F", 0xF0FF#16, 0xF029#16⟩, ⟨"LD_B", 0xF0FF#16, 0xF033#16⟩,
    ⟨"LD__I", 0xF0FF#16, 0xF055#16⟩, ⟨"LD_Vx___I", 0xF0FF#16, 0xF065#16⟩ ]

/-- The 32 rows of the opcode map (R86), in the table's order and with the table's mnemonics. -/
def opcodeTable : List OpcodeRow := opcodeTableLow ++ opcodeTableMid ++ opcodeTableHigh

/-- A word is an instruction of the row (R86). -/
def OpcodeRow.accepts (r : OpcodeRow) (w : Word) : Bool := (w &&& r.mask) == r.value

/-- Why bytes are no instruction: one name for each class of illegal word of R88, and the end of the bytes. -/
inductive DecodeError where
  /-- fewer than two bytes are left -/
  | truncated
  /-- 0x0000 to 0x0FFF except 0x00E0 and 0x00EE -/
  | zeroFamily (w : Word)
  /-- 0x5XYn with n other than 0 -/
  | fiveFamily (w : Word)
  /-- 0x8XYn with n in 7, 8, 9, A, B, C, D, F -/
  | eightFamily (w : Word)
  /-- 0x9XYn with n other than 0 -/
  | nineFamily (w : Word)
  /-- every 0xBNNN -/
  | bFamily (w : Word)
  /-- 0xEXnn with nn not 0x9E or 0xA1 -/
  | eFamily (w : Word)
  /-- 0xFXnn with nn not one of the nine of R88 -/
  | fFamily (w : Word)
  deriving DecidableEq, Repr

/-- Family 0: 00E0 and 00EE only (R86, R88). -/
def decodeZero (w : Word) : Except DecodeError Instr :=
  if w = 0x00E0#16 then .ok .cls
  else if w = 0x00EE#16 then .ok .ret
  else .error (.zeroFamily w)

/-- Family 8: the low nibble is an opcode digit (R86). -/
def decodeEight (w : Word) : Except DecodeError Instr :=
  match (fieldN w).toNat with
  | 0x0 => .ok (.ldReg (fieldX w) (fieldY w))
  | 0x1 => .ok (.or (fieldX w) (fieldY w))
  | 0x2 => .ok (.and (fieldX w) (fieldY w))
  | 0x3 => .ok (.xor (fieldX w) (fieldY w))
  | 0x4 => .ok (.addReg (fieldX w) (fieldY w))
  | 0x5 => .ok (.sub (fieldX w) (fieldY w))
  | 0x6 => .ok (.shr (fieldX w) (fieldY w))
  | 0xE => .ok (.shl (fieldX w) (fieldY w))
  | _ => .error (.eightFamily w)

/-- Family E: the low byte is an opcode byte (R86). -/
def decodeE (w : Word) : Except DecodeError Instr :=
  if fieldNN w = 0x9E#8 then .ok (.skp (fieldX w))
  else if fieldNN w = 0xA1#8 then .ok (.sknp (fieldX w))
  else .error (.eFamily w)

/-- Family F: the low byte is an opcode byte (R86). -/
def decodeF (w : Word) : Except DecodeError Instr :=
  if fieldNN w = 0x07#8 then .ok (.ldVxDt (fieldX w))
  else if fieldNN w = 0x0A#8 then .ok (.ldVxK (fieldX w))
  else if fieldNN w = 0x15#8 then .ok (.ldDtVx (fieldX w))
  else if fieldNN w = 0x18#8 then .ok (.ldStVx (fieldX w))
  else if fieldNN w = 0x1E#8 then .ok (.addI (fieldX w))
  else if fieldNN w = 0x29#8 then .ok (.ldF (fieldX w))
  else if fieldNN w = 0x33#8 then .ok (.ldB (fieldX w))
  else if fieldNN w = 0x55#8 then .ok (.ldMemI (fieldX w))
  else if fieldNN w = 0x65#8 then .ok (.ldVxMemI (fieldX w))
  else .error (.fFamily w)

/-- Decode one word by its family, then by the fixed digits of its pattern (R86, R87). A digit a pattern fixes is
checked (D4). The last arm is family F: a nibble is at most 15. -/
def decodeWord (w : Word) : Except DecodeError Instr :=
  match (fieldFamily w).toNat with
  | 0x0 => decodeZero w
  | 0x1 => .ok (.jp (fieldNNN w))
  | 0x2 => .ok (.call (fieldNNN w))
  | 0x3 => .ok (.seImm (fieldX w) (fieldNN w))
  | 0x4 => .ok (.sneImm (fieldX w) (fieldNN w))
  | 0x5 => if fieldN w = 0x0#4 then .ok (.seReg (fieldX w) (fieldY w)) else .error (.fiveFamily w)
  | 0x6 => .ok (.ldImm (fieldX w) (fieldNN w))
  | 0x7 => .ok (.addImm (fieldX w) (fieldNN w))
  | 0x8 => decodeEight w
  | 0x9 => if fieldN w = 0x0#4 then .ok (.sneReg (fieldX w) (fieldY w)) else .error (.nineFamily w)
  | 0xA => .ok (.ldI (fieldNNN w))
  | 0xB => .error (.bFamily w)
  | 0xC => .ok (.rnd (fieldX w) (fieldNN w))
  | 0xD => .ok (.drw (fieldX w) (fieldY w) (fieldN w))
  | 0xE => decodeE w
  | _ => decodeF w

/-- Decode the first instruction of a byte string, and say what is left: two bytes, big-endian (R52, R80). -/
def decode : List Byte → Except DecodeError (Instr × List Byte)
  | hi :: lo :: rest => (decodeWord (wordOfBytes hi lo)).map (fun i => (i, rest))
  | _ => .error .truncated

/-- The word of an instruction, digit by digit as its pattern in R86 writes it. -/
def encode : Instr → Word
  | .cls => 0x00E0#16
  | .ret => 0x00EE#16
  | .jp nnn => 0x1#4 ++ nnn
  | .call nnn => 0x2#4 ++ nnn
  | .seImm x nn => 0x3#4 ++ regBits x ++ nn
  | .sneImm x nn => 0x4#4 ++ regBits x ++ nn
  | .seReg x y => 0x5#4 ++ regBits x ++ regBits y ++ 0x0#4
  | .ldImm x nn => 0x6#4 ++ regBits x ++ nn
  | .addImm x nn => 0x7#4 ++ regBits x ++ nn
  | .ldReg x y => 0x8#4 ++ regBits x ++ regBits y ++ 0x0#4
  | .or x y => 0x8#4 ++ regBits x ++ regBits y ++ 0x1#4
  | .and x y => 0x8#4 ++ regBits x ++ regBits y ++ 0x2#4
  | .xor x y => 0x8#4 ++ regBits x ++ regBits y ++ 0x3#4
  | .addReg x y => 0x8#4 ++ regBits x ++ regBits y ++ 0x4#4
  | .sub x y => 0x8#4 ++ regBits x ++ regBits y ++ 0x5#4
  | .shr x y => 0x8#4 ++ regBits x ++ regBits y ++ 0x6#4
  | .shl x y => 0x8#4 ++ regBits x ++ regBits y ++ 0xE#4
  | .sneReg x y => 0x9#4 ++ regBits x ++ regBits y ++ 0x0#4
  | .ldI nnn => 0xA#4 ++ nnn
  | .rnd x nn => 0xC#4 ++ regBits x ++ nn
  | .drw x y n => 0xD#4 ++ regBits x ++ regBits y ++ n
  | .skp x => 0xE#4 ++ regBits x ++ 0x9E#8
  | .sknp x => 0xE#4 ++ regBits x ++ 0xA1#8
  | .ldVxDt x => 0xF#4 ++ regBits x ++ 0x07#8
  | .ldVxK x => 0xF#4 ++ regBits x ++ 0x0A#8
  | .ldDtVx x => 0xF#4 ++ regBits x ++ 0x15#8
  | .ldStVx x => 0xF#4 ++ regBits x ++ 0x18#8
  | .addI x => 0xF#4 ++ regBits x ++ 0x1E#8
  | .ldF x => 0xF#4 ++ regBits x ++ 0x29#8
  | .ldB x => 0xF#4 ++ regBits x ++ 0x33#8
  | .ldMemI x => 0xF#4 ++ regBits x ++ 0x55#8
  | .ldVxMemI x => 0xF#4 ++ regBits x ++ 0x65#8

/-- The row of the opcode map an instruction belongs to, by its mnemonic there. -/
def Instr.mnemonic : Instr → String
  | .cls => "CLS"
  | .ret => "RET"
  | .jp _ => "JP"
  | .call _ => "CALL"
  | .seImm _ _ => "SE__imm"
  | .sneImm _ _ => "SNE__imm"
  | .seReg _ _ => "SE__reg"
  | .ldImm _ _ => "LD__imm"
  | .addImm _ _ => "ADD__imm"
  | .ldReg _ _ => "LD__reg"
  | .or _ _ => "OR"
  | .and _ _ => "AND"
  | .xor _ _ => "XOR"
  | .addReg _ _ => "ADD__reg"
  | .sub _ _ => "SUB"
  | .shr _ _ => "SHR"
  | .shl _ _ => "SHL"
  | .sneReg _ _ => "SNE__reg"
  | .ldI _ => "LD_I"
  | .rnd _ _ => "RND"
  | .drw _ _ _ => "DRW"
  | .skp _ => "SKP"
  | .sknp _ => "SKNP"
  | .ldVxDt _ => "LD_Vx__DT"
  | .ldVxK _ => "LD_Vx__K"
  | .ldDtVx _ => "LD_DT__Vx"
  | .ldStVx _ => "LD_ST__Vx"
  | .addI _ => "ADD_I"
  | .ldF _ => "LD_F"
  | .ldB _ => "LD_B"
  | .ldMemI _ => "LD__I"
  | .ldVxMemI _ => "LD_Vx___I"

/-- The bytes of an instruction in memory (R52, R80). -/
def encodeBytes (i : Instr) : List Byte := wordBytes (encode i)

/-- The word of the table's bit numbering, `nbits` of it, the rest zero (one 16-bit word is the longest instruction). -/
def tableWord (nbits w : Nat) : Word := BitVec.ofNat 16 (w % 2 ^ nbits)

/-- What the decoder reads from the table's word `w` laid out in memory as the hardware stores it. -/
def decodeTableWord (nbits w : Nat) : Option Instr :=
  match decode (wordBytes (tableWord nbits w)) with
  | .ok (i, _) => some i
  | .error _ => none

end Sys2Proof
end

