-- ==== Sys2Proof/Machine/State.lean ====
section
/-! DEFINITION. The state of the core (10_state R20 to R38), its reset value, and the reasons a step can stop. -/

namespace Sys2Proof.Machine

/-- The five fault kinds of 60_exceptions R220. `step` raises the first four; `loadOverflow` is only ever the answer
of a rejected `load`. -/
inductive FaultKind where
  /-- code 1: the word matches no row of the opcode map (R221) -/
  | decodeFault
  /-- code 2: 2NNN with `SP = 16` (R222) -/
  | stackOverflow
  /-- code 3: 00EE with `SP = 0` (R223) -/
  | stackUnderflow
  /-- code 4: EX9E or EXA1 with `V[x] > 15` (R224) -/
  | keyIndexFault
  /-- code 5: a program image longer than 3584 bytes (R227) -/
  | loadOverflow
  deriving DecidableEq, Repr

/-- The record a faulting step leaves in `FAULT` (R33, R225); its code is that of its kind (`FaultKind.code`). -/
structure FaultRecord where
  kind   : FaultKind
  opcode : Word
  pc     : Word
  deriving DecidableEq, Repr

/-- `MEM` as the cells that differ from the reset contents, addresses strictly rising (`Memory.wf`). -/
abbrev Memory := List Host.Cell

/-- `FB`, row by row: entry `y` is pixel row `y`, its entry `x` the pixel at column `x` (R31); `true` is on. -/
abbrev Framebuffer := Vector (Vector Bool 64) 32

/-- The state of the block (R20), and the model's own two fields `font` and `draws`. -/
structure State where
  /-- `V[0]` to `V[15]` (R21); `VF` is `V[15]` -/
  v      : Vector Byte 16
  /-- the index register `I` (R24) -/
  i      : Word
  /-- the program counter `PC` (R25) -/
  pc     : Word
  /-- `STACK[0]` to `STACK[15]` (R26) -/
  stack  : Vector Word 16
  /-- `SP`, 0 to 16, the number of entries in use (R26; R37: 17 to 31 never occur; log 12) -/
  sp     : Fin 17
  /-- the delay timer `DT` (R27) -/
  dt     : Byte
  /-- the sound timer `ST` (R28) -/
  st     : Byte
  /-- `MEM` (R34), the cells that differ from the reset contents -/
  mem    : Memory
  /-- the framebuffer `FB` (R31) -/
  fb     : Framebuffer
  /-- the redraw flag `REDRAW` (R30) -/
  redraw : Bool
  /-- the keypad snapshot `KEYS[0..15]` (R32); `true` is pressed -/
  keys   : Vector Bool 16
  /-- `FAULT`: `none`, or the record of the fault that halted the core (R33, R226) -/
  fault  : Option FaultRecord
  /-- the model's own: the parameter `FONT` (R7, R57), which nothing changes (log 1) -/
  font   : Vector Byte 80
  /-- the model's own: how many random bytes were drawn (log 2) -/
  draws  : Nat
  deriving DecidableEq, Repr

/-- Power-on (R38, R271): everything zero, off, released or empty but `PC = 0x200` and the font at 0, which is what
unlisted memory reads as. `font` is the default of R57 (log 1); `draws` starts at 0, a DESIGN CHOICE (log 2). -/
def State.reset : State where
  v      := Vector.replicate 16 0
  i      := 0
  pc     := BitVec.ofNat 16 Config.progBase
  stack  := Vector.replicate 16 0
  sp     := 0
  dt     := 0
  st     := 0
  mem    := []
  fb     := Vector.replicate 32 (Vector.replicate 64 false)
  redraw := false
  keys   := Vector.replicate 16 false
  fault  := none
  font   := defaultFont
  draws  := 0

/-- Why a step stops. -/
inductive Fault where
  /-- Raised by `step`, never by an instruction, on a core halted by an earlier fault: "`step` returns the recorded
  fault and changes nothing" (R226). Safe: the core does nothing either (log 4). -/
  | halted (record : FaultRecord)
  deriving DecidableEq, Repr

/-- Why the model gives no meaning. -/
inductive Refusal where
  /-- Raised by an arm of `exec` whose instruction has no meaning yet; no arm of this model is such. Safe. -/
  | notModelled (mnemonic : String)
  /-- Raised by the host's key setters, never by `step`: "A setter with k outside 0 to 15 is not a transaction of the
  block ... and a model refuses it" (R247). Safe. -/
  | noSuchKey (k : Nat)
  deriving DecidableEq, Repr

end Sys2Proof.Machine
end

