-- ==== Sys2Proof/Machine/Ops.lean ====
section
/-! DEFINITION. The named operations over memory, registers, call stack, keypad and framebuffer, and taking a fault:
every read and write of the state by an instruction goes through these. -/

namespace Sys2Proof.Machine

/-! ### Memory (20_memory R50 to R58) -/

/-- What an address no store has changed reads as: the reset contents, `FONT` in [0, 80) and zero above (R38, R56). -/
def Memory.unlisted (font : Vector Byte 80) (a : Nat) : Byte :=
  if h : a < 80 then font[a] else 0

/-- The canonical form: addresses strictly rising and inside `MEM`, no cell equal to what is there unlisted. -/
abbrev Memory.wf (font : Vector Byte 80) (m : Memory) : Prop :=
  m.Pairwise (fun c d => c.1 < d.1) ∧ ∀ c ∈ m, c.1 < 4096 ∧ c.2 ≠ Memory.unlisted font c.1

/-- The listed byte at an address, if any. -/
def Memory.listed : Memory → Nat → Option Byte
  | [], _ => none
  | (k, b) :: rest, a => if k = a then some b else Memory.listed rest a

/-- Put a cell in its place, replacing the one at the same address. -/
def Memory.insert (a : Nat) (b : Byte) : Memory → Memory
  | [] => [(a, b)]
  | (k, c) :: rest =>
    if a < k then (a, b) :: (k, c) :: rest
    else if a = k then (a, b) :: rest
    else (k, c) :: Memory.insert a b rest

/-- Take the cell at an address away. -/
def Memory.erase (a : Nat) : Memory → Memory
  | [] => []
  | (k, c) :: rest => if k = a then Memory.erase a rest else (k, c) :: Memory.erase a rest

/-- Read index `a` of `MEM`. -/
def Memory.read (font : Vector Byte 80) (m : Memory) (a : Nat) : Byte :=
  (m.listed a).getD (Memory.unlisted font a)

/-- Write index `a` of `MEM`, keeping the canonical form. -/
def Memory.write (font : Vector Byte 80) (m : Memory) (a : Nat) (b : Byte) : Memory :=
  if b = Memory.unlisted font a then m.erase a else m.insert a b

/-- The index of an address: every access is reduced `mod 4096` (R11, R53). -/
def memIndex (a : Nat) : Nat := a % 4096

/-- `MemRead(a, 1)` (R11). -/
def State.byteAt (s : State) (a : Nat) : Byte := Memory.read s.font s.mem (memIndex a)

/-- `MemWrite(a, 1, b)` (R11). -/
def State.storeByte (s : State) (a : Nat) (b : Byte) : State :=
  { s with mem := Memory.write s.font s.mem (memIndex a) b }

/-- Store bytes at `a`, `a + 1`, ... in this order (R173, R174, R272). -/
def State.storeBytes (s : State) (a : Nat) : List Byte → State
  | [] => s
  | b :: bs => (s.storeByte a b).storeBytes (a + 1) bs

/-- `MemRead(PC, 2)`: the big-endian word at `PC`, both bytes reduced `mod 4096` (R11, R52, R83). -/
def State.fetchWord (s : State) : Word := wordOfBytes (s.byteAt s.pc.toNat) (s.byteAt (s.pc.toNat + 1))

/-! ### Registers (10_state R21 to R29) -/

/-- `VF`, register 15 (R22). -/
def regVF : RegIdx := 15

/-- Read `V[x]`. -/
def State.reg (s : State) (x : RegIdx) : Byte := s.v.get x

/-- Write `V[x]`. -/
def State.setReg (s : State) (x : RegIdx) (b : Byte) : State := { s with v := s.v.set x.val b x.isLt }

/-- Write `VF` as a flag (R29). -/
def State.setFlag (s : State) (b : Byte) : State := s.setReg regVF b

/-- Write `I`. -/
def State.setI (s : State) (w : Word) : State := { s with i := w }

/-- `V[k] <- MemRead(a + k, 1)` for `k` in `0 .. count - 1`, in this order; the other registers keep their values
(R175). -/
def State.loadRegs (s : State) (a : Nat) : Nat → State
  | 0 => s
  | k + 1 =>
    if h : k < 16 then (s.loadRegs a k).setReg ⟨k, h⟩ ((s.loadRegs a k).byteAt (a + k)) else s.loadRegs a k

/-! ### Program counter (10_state R25, 30_encoding R83, 41_control_flow R128) -/

/-- `PC <- (PC + 2) mod 65536`: after the fetch (R83), and once more by a taken skip (R128). -/
def State.advancePc (s : State) : State := { s with pc := s.pc + 2 }

/-- `PC <- (PC - 2) mod 65536`: FX0A with no key pressed (R193). -/
def State.rewindPc (s : State) : State := { s with pc := s.pc - 2 }

/-- `PC <- target`. -/
def State.setPc (s : State) (target : Word) : State := { s with pc := target }

/-- Skip the next instruction when the condition holds (R128). -/
def State.skipIf (s : State) (c : Bool) : State := if c then s.advancePc else s

/-! ### Call stack (10_state R26) -/

/-- Write at `SP`, then increment `SP`; `none` when the stack is full (R122). -/
def State.push (s : State) (w : Word) : Option State :=
  if h : s.sp.val < 16 then
    some { s with stack := s.stack.set s.sp.val w h, sp := ⟨s.sp.val + 1, Nat.succ_lt_succ h⟩ }
  else none

/-- Decrement `SP`, then read there; the entry keeps its value; `none` when the stack is empty (R120). -/
def State.pop (s : State) : Option (Word × State) :=
  if h : s.sp.val = 0 then none
  else
    let k := s.sp.val - 1
    have hk : k < 16 := by have := s.sp.isLt; omega
    some (s.stack[k], { s with sp := ⟨k, by omega⟩ })

/-! ### Keypad (10_state R32) -/

/-- `KEYS[k]`. -/
def State.keyDown (s : State) (k : Fin 16) : Bool := s.keys.get k

/-- `KEYS[k] <- down`, for the host's setters only (R247). -/
def State.setKey (s : State) (k : Fin 16) (down : Bool) : State := { s with keys := s.keys.set k.val down k.isLt }

/-- The largest `k` with `KEYS[k] = 1`, if any: a scan in index order whose last match wins (R193, D8). -/
def State.highestKey (s : State) : Option (Fin 16) :=
  (List.finRange 16).foldl (fun found k => if s.keyDown k then some k else found) none

/-! ### Framebuffer (10_state R31) -/

/-- `FB[x][y]`. -/
def Framebuffer.pixel (fb : Framebuffer) (x : Fin 64) (y : Fin 32) : Bool := (fb.get y).get x

/-- `FB[x][y] <- on`. -/
def Framebuffer.setPixel (fb : Framebuffer) (x : Fin 64) (y : Fin 32) (on : Bool) : Framebuffer :=
  fb.set y.val ((fb.get y).set x.val on x.isLt) y.isLt

/-- Every pixel off (R100). -/
def Framebuffer.clear : Framebuffer := Vector.replicate 32 (Vector.replicate 64 false)

/-! ### The random source (00_scope R12, 60_exceptions R251) -/

/-- `rand8()`: the next byte of the free stream, and the state that has drawn it. -/
def State.rand8 (s : State) : Byte × State := (Config.rand8 s.draws, { s with draws := s.draws + 1 })

/-! ### Faults (60_exceptions R220, R225) -/

/-- The codes of R220. -/
def FaultKind.code : FaultKind → Nat
  | .decodeFault => 1
  | .stackOverflow => 2
  | .stackUnderflow => 3
  | .keyIndexFault => 4
  | .loadOverflow => 5

/-- `raise Fault(kind, op, pc_i)` (R12, R225), on the state after the fetch: the state before the step is restored
and `FAULT` records the fault. Every fault is raised before its instruction writes anything (R222, R223, R228), so
all there is to restore is the fetch's `PC` increment, and `pc_i` is `PC - 2` (log 5). -/
def State.takeFault (s : State) (kind : FaultKind) (op : Word) : State :=
  { s.rewindPc with fault := some ⟨kind, op, s.pc - 2⟩ }

end Sys2Proof.Machine
end

