-- ==== Sys2Proof/Machine/Operands.lean ====
section
/-! DEFINITION. The operand forms (30_encoding R85, 43_index_memory R176): a register number and an immediate stand
in the instruction as they are; what is left are these. -/

namespace Sys2Proof.Machine

/-- `zext_16(nnn)` (R9, R85). -/
def zext16Addr (nnn : Addr12) : Word := nnn.setWidth 16

/-- `zext_16(v)` of a byte (R9). -/
def zext16Byte (b : Byte) : Word := b.setWidth 16

/-- The address `I + k` of a data access, before its reduction (R176). -/
def State.dataAddr (s : State) (k : Nat) : Nat := s.i.toNat + k

/-- `x + 1`, the count of registers FX55 and FX65 move and the step of their post-increment (R85, R176). -/
def regCount (x : RegIdx) : Nat := x.val + 1

/-- `I` after the post-increment by `x + 1`, mod 65536 (R176). -/
def State.postIncI (s : State) (x : RegIdx) : Word := s.i + BitVec.ofNat 16 (regCount x)

/-- The values of `V[0]` to `V[x]`, in order (R174). -/
def State.lowRegs (s : State) (x : RegIdx) : List Byte := s.v.toList.take (regCount x)

/-- The key an 8-bit register value names, if the keypad has it (R196). -/
def keyOperand (b : Byte) : Option (Fin 16) := if h : b.toNat < 16 then some ⟨b.toNat, h⟩ else none

/-- The three decimal digits of a byte: hundreds, tens, units (R173). -/
def decimalDigits (b : Byte) : List Byte :=
  [BitVec.ofNat 8 (b.toNat / 100), BitVec.ofNat 8 (b.toNat / 10 % 10), BitVec.ofNat 8 (b.toNat % 10)]

/-- The font address `v * 5` of FX29; `v` is not masked, and the product is at most 1275 (R172). -/
def glyphAddr (b : Byte) : Word := BitVec.ofNat 16 (b.toNat * 5)

end Sys2Proof.Machine
end

