-- ==== Sys2Proof/Machine/Flags.lean ====
section
/-! DEFINITION. The values written to `VF` as a flag (10_state R29), and the order of flag and result (42_alu R140). -/

namespace Sys2Proof.Machine

/-- 8XY4: 1 if the sum exceeds 255, else 0 (R147). -/
def carryFlag (a b : Byte) : Byte := if a.toNat + b.toNat > 255 then 1 else 0

/-- 8XY5: 1 if `a > b` strictly, else 0 (R148, C9). -/
def greaterFlag (a b : Byte) : Byte := if a.toNat > b.toNat then 1 else 0

/-- 8XY6: the bit shifted out, 0 or 1 (R149). -/
def lowBitFlag (a : Byte) : Byte := a &&& 0x01

/-- 8XYE: bit 7 in place, 0x00 or 0x80 (R150). -/
def highBitFlag (a : Byte) : Byte := a &&& 0x80

/-- DXYN: 1 after a collision, else 0 (R101). -/
def collisionFlag (hit : Bool) : Byte := if hit then 1 else 0

/-- The two statements `VF <- flag; V[x] <- result` in that order: the result is computed from the registers as the
flag's write left them, and replaces the flag when `x` is 15 (R140, D5). -/
def State.flagThenResult (s : State) (flag : Byte) (x : RegIdx) (result : State → Byte) : State :=
  (s.setFlag flag).setReg x (result (s.setFlag flag))

end Sys2Proof.Machine
end

