-- ==== Sys2Proof/Machine/Alu.lean ====
section
/-! DEFINITION. Register loads, arithmetic, logic, shifts and the random byte (42_alu R140 to R152): 8-bit unsigned,
wrapping mod 256, which is `BitVec 8` arithmetic. -/

namespace Sys2Proof.Machine

/-- LD Vx, nn, 6XNN (R141). -/
def execLdImm (x : RegIdx) (nn : Byte) (s : State) : Host.Outcome State Fault Refusal :=
  .next (s.setReg x nn)

/-- ADD Vx, nn, 7XNN (R142): no flag. -/
def execAddImm (x : RegIdx) (nn : Byte) (s : State) : Host.Outcome State Fault Refusal :=
  .next (s.setReg x (s.reg x + nn))

/-- LD Vx, Vy, 8XY0 (R143). -/
def execLdReg (x y : RegIdx) (s : State) : Host.Outcome State Fault Refusal :=
  .next (s.setReg x (s.reg y))

/-- OR Vx, Vy, 8XY1 (R144): no flag. -/
def execOr (x y : RegIdx) (s : State) : Host.Outcome State Fault Refusal :=
  .next (s.setReg x (s.reg x ||| s.reg y))

/-- AND Vx, Vy, 8XY2 (R145): no flag. -/
def execAnd (x y : RegIdx) (s : State) : Host.Outcome State Fault Refusal :=
  .next (s.setReg x (s.reg x &&& s.reg y))

/-- XOR Vx, Vy, 8XY3 (R146): no flag. -/
def execXor (x y : RegIdx) (s : State) : Host.Outcome State Fault Refusal :=
  .next (s.setReg x (s.reg x ^^^ s.reg y))

/-- ADD Vx, Vy, 8XY4 (R147): carry to `VF`, then the sum. -/
def execAddReg (x y : RegIdx) (s : State) : Host.Outcome State Fault Refusal :=
  .next (s.flagThenResult (carryFlag (s.reg x) (s.reg y)) x fun t => t.reg x + t.reg y)

/-- SUB Vx, Vy, 8XY5 (R148): `V[x] > V[y]` to `VF`, then the difference. -/
def execSub (x y : RegIdx) (s : State) : Host.Outcome State Fault Refusal :=
  .next (s.flagThenResult (greaterFlag (s.reg x) (s.reg y)) x fun t => t.reg x - t.reg y)

/-- SHR Vx, 8XY6 (R149): bit 0 to `VF`, then the shift of `V[x]`; `y` is ignored (R89). -/
def execShr (x _y : RegIdx) (s : State) : Host.Outcome State Fault Refusal :=
  .next (s.flagThenResult (lowBitFlag (s.reg x)) x fun t => t.reg x >>> 1)

/-- SHL Vx, 8XYE (R150): `V[x] & 0x80` to `VF`, then the shift of `V[x]`; `y` is ignored (R89). -/
def execShl (x _y : RegIdx) (s : State) : Host.Outcome State Fault Refusal :=
  .next (s.flagThenResult (highBitFlag (s.reg x)) x fun t => t.reg x <<< 1)

/-- RND Vx, nn, CXNN (R151): a free byte AND `nn`. -/
def execRnd (x : RegIdx) (nn : Byte) (s : State) : Host.Outcome State Fault Refusal :=
  .next (s.rand8.2.setReg x (s.rand8.1 &&& nn))

end Sys2Proof.Machine
end

