-- ==== Sys2Proof/Machine/ControlFlow.lean ====
section
/-! DEFINITION. Return, jump, call and the four register skips (41_control_flow R120 to R128). Every meaning is given
on the state after the fetch (00_scope R13). -/

namespace Sys2Proof.Machine

/-- RET, 00EE (R120): StackUnderflow when `SP = 0`. -/
def execRet (s : State) : Host.Outcome State Fault Refusal :=
  match s.pop with
  | none => .next (s.takeFault .stackUnderflow (encode .ret))
  | some (target, t) => .next (t.setPc target)

/-- JP nnn, 1NNN (R121). -/
def execJp (nnn : Addr12) (s : State) : Host.Outcome State Fault Refusal :=
  .next (s.setPc (zext16Addr nnn))

/-- CALL nnn, 2NNN (R122): pushes the address after the call; StackOverflow when `SP = 16`. -/
def execCall (nnn : Addr12) (s : State) : Host.Outcome State Fault Refusal :=
  match s.push s.pc with
  | none => .next (s.takeFault .stackOverflow (encode (.call nnn)))
  | some t => .next (t.setPc (zext16Addr nnn))

/-- SE Vx, nn, 3XNN (R123). -/
def execSeImm (x : RegIdx) (nn : Byte) (s : State) : Host.Outcome State Fault Refusal :=
  .next (s.skipIf (s.reg x == nn))

/-- SNE Vx, nn, 4XNN (R124). -/
def execSneImm (x : RegIdx) (nn : Byte) (s : State) : Host.Outcome State Fault Refusal :=
  .next (s.skipIf (s.reg x != nn))

/-- SE Vx, Vy, 5XY0 (R125). -/
def execSeReg (x y : RegIdx) (s : State) : Host.Outcome State Fault Refusal :=
  .next (s.skipIf (s.reg x == s.reg y))

/-- SNE Vx, Vy, 9XY0 (R126). -/
def execSneReg (x y : RegIdx) (s : State) : Host.Outcome State Fault Refusal :=
  .next (s.skipIf (s.reg x != s.reg y))

end Sys2Proof.Machine
end

