-- ==== Sys2Proof/Machine/Display.lean ====
section
/-! DEFINITION. 00E0 and DXYN (40_display R100 to R104). -/

namespace Sys2Proof.Machine

/-- A framebuffer being drawn on, and whether a pixel was turned off so far. -/
abbrev Canvas := Framebuffer × Bool

/-- One set sprite bit at `(px, py)`: outside the grid it is ignored; inside, an on pixel goes off with a collision,
an off pixel goes on (R101, R102). -/
def plotBit (px py : Nat) (c : Canvas) : Canvas :=
  if h : px < 64 ∧ py < 32 then
    if c.1.pixel ⟨px, h.1⟩ ⟨py, h.2⟩ then (c.1.setPixel ⟨px, h.1⟩ ⟨py, h.2⟩ false, true)
    else (c.1.setPixel ⟨px, h.1⟩ ⟨py, h.2⟩ true, c.2)
  else c

/-- One sprite row at pixel row `py`: bit `7 - col` of the byte is drawn at column `ox + col` (R103). -/
def plotRow (ox py : Nat) (b : Byte) (c : Canvas) : Canvas :=
  (List.range 8).foldl (fun c col => if b.getLsbD (7 - col) then plotBit (ox + col) py c else c) c

/-- The sprite's rows, one below the other from pixel row `py` (R101). -/
def plotRows (ox py : Nat) : List Byte → Canvas → Canvas
  | [], c => c
  | b :: bs, c => plotRows ox (py + 1) bs (plotRow ox py b c)

/-- The `n` bytes of the sprite at `I` (R101, R176). -/
def State.spriteBytes (s : State) (n : Nat) : List Byte := (List.range n).map fun row => s.byteAt (s.dataAddr row)

/-- Draw with the origin `(V[x] mod 64, V[y] mod 32)` read before `VF` is written (D6). The collision is kept beside
the framebuffer and written to `VF` at the end; nothing in between reads `VF` (log 11). `REDRAW` is set by every
draw (R104). -/
def State.drawSprite (s : State) (x y : RegIdx) (n : Nat) : State :=
  let c := plotRows ((s.reg x).toNat % 64) ((s.reg y).toNat % 32) (s.spriteBytes n) (s.fb, false)
  { s.setFlag (collisionFlag c.2) with fb := c.1, redraw := true }

/-- CLS, 00E0 (R100). -/
def execCls (s : State) : Host.Outcome State Fault Refusal :=
  .next { s with fb := Framebuffer.clear, redraw := true }

/-- DRW Vx, Vy, n, DXYN (R101). -/
def execDrw (x y : RegIdx) (n : Nibble) (s : State) : Host.Outcome State Fault Refusal :=
  .next (s.drawSprite x y n.toNat)

end Sys2Proof.Machine
end

