-- ==== Sys2Proof/Machine/IndexMemory.lean ====
section
/-! DEFINITION. The index register and the loads and stores through it (43_index_memory R170 to R176). -/

namespace Sys2Proof.Machine

/-- LD I, nnn, ANNN (R170). -/
def execLdI (nnn : Addr12) (s : State) : Host.Outcome State Fault Refusal :=
  .next (s.setI (zext16Addr nnn))

/-- ADD I, Vx, FX1E (R171): mod 65536, no flag. -/
def execAddI (x : RegIdx) (s : State) : Host.Outcome State Fault Refusal :=
  .next (s.setI (s.i + zext16Byte (s.reg x)))

/-- LD F, Vx, FX29 (R172). -/
def execLdF (x : RegIdx) (s : State) : Host.Outcome State Fault Refusal :=
  .next (s.setI (glyphAddr (s.reg x)))

/-- LD B, Vx, FX33 (R173): `I` is unchanged. -/
def execLdB (x : RegIdx) (s : State) : Host.Outcome State Fault Refusal :=
  .next (s.storeBytes (s.dataAddr 0) (decimalDigits (s.reg x)))

/-- LD [I], Vx, FX55 (R174): `I` advances by `x + 1`. -/
def execLdMemI (x : RegIdx) (s : State) : Host.Outcome State Fault Refusal :=
  .next ((s.storeBytes (s.dataAddr 0) (s.lowRegs x)).setI (s.postIncI x))

/-- LD Vx, [I], FX65 (R175): `I` advances by `x + 1`. -/
def execLdVxMemI (x : RegIdx) (s : State) : Host.Outcome State Fault Refusal :=
  .next ((s.loadRegs (s.dataAddr 0) (regCount x)).setI (s.postIncI x))

end Sys2Proof.Machine
end

