-- ==== Sys2Proof/Machine/KeypadTimers.lean ====
section
/-! DEFINITION. Keypad and timer instructions (44_keypad_timers R190 to R196). -/

namespace Sys2Proof.Machine

/-- SKP Vx, EX9E (R190): KeyIndexFault when `V[x] > 15`. -/
def execSkp (x : RegIdx) (s : State) : Host.Outcome State Fault Refusal :=
  match keyOperand (s.reg x) with
  | none => .next (s.takeFault .keyIndexFault (encode (.skp x)))
  | some k => .next (s.skipIf (s.keyDown k))

/-- SKNP Vx, EXA1 (R191): KeyIndexFault when `V[x] > 15`. -/
def execSknp (x : RegIdx) (s : State) : Host.Outcome State Fault Refusal :=
  match keyOperand (s.reg x) with
  | none => .next (s.takeFault .keyIndexFault (encode (.sknp x)))
  | some k => .next (s.skipIf (!s.keyDown k))

/-- LD Vx, DT, FX07 (R192). -/
def execLdVxDt (x : RegIdx) (s : State) : Host.Outcome State Fault Refusal :=
  .next (s.setReg x s.dt)

/-- LD Vx, K, FX0A (R193): the highest pressed key, or back to this instruction when none is pressed. -/
def execLdVxK (x : RegIdx) (s : State) : Host.Outcome State Fault Refusal :=
  match s.highestKey with
  | none => .next s.rewindPc
  | some k => .next (s.setReg x (BitVec.ofNat 8 k.val))

/-- LD DT, Vx, FX15 (R194). -/
def execLdDtVx (x : RegIdx) (s : State) : Host.Outcome State Fault Refusal :=
  .next { s with dt := s.reg x }

/-- LD ST, Vx, FX18 (R195): no event is emitted. -/
def execLdStVx (x : RegIdx) (s : State) : Host.Outcome State Fault Refusal :=
  .next { s with st := s.reg x }

end Sys2Proof.Machine
end

