-- ==== Sys2Proof/Machine/Step.lean ====
section
/-! DEFINITION. The `step` transaction (30_encoding R82, R83; 60_exceptions R225, R226). -/

namespace Sys2Proof.Machine

/-- Execute exactly one instruction (R82). A halted core returns its recorded fault (R226, log 4). A word that decodes
to nothing takes DecodeFault (R221); any other fault is taken inside the instruction. The fault a step returns to the
host is what it leaves in `FAULT` (R33, log 3). -/
def step (s : State) : Host.Outcome State Fault Refusal :=
  match s.fault with
  | some r => .fault (.halted r)
  | none =>
    match decodeWord s.fetchWord with
    | .error _ => .next (s.advancePc.takeFault .decodeFault s.fetchWord)
    | .ok i => exec i s.advancePc

/-- The state with the table's word `w` stored, big-endian, where `step` fetches next: what a `load` of a program does
for its first word (log 8). `FAULT` is cleared, since a halted core fetches nothing. -/
def State.withFetchWord (s : State) (nbits w : Nat) : State :=
  { s.storeBytes s.pc.toNat (wordBytes (tableWord nbits w)) with fault := none }

end Sys2Proof.Machine
end

