-- ==== Sys2Proof/Machine/Assembler.lean ====
section
/-! DEFINITION. The spec's assembler syntax (30_encoding R90, R91) as abstract syntax: mnemonics and operands with
the numbers a programmer writes, assembled to a word. How a line is spelled in characters is not modelled (log 9). -/

namespace Sys2Proof.Machine

/-- The mnemonics of R90, and the data directive `DW`. -/
inductive AsmOp where
  | cls | ret | jp | call | se | sne | ld | add | or | and | xor | sub | shr | shl | rnd | drw | skp | sknp | dw
  deriving DecidableEq, Repr

/-- The operands of R90. -/
inductive AsmOperand where
  /-- `V0` to `VF` -/
  | v (k : Nat)
  /-- a number, hexadecimal or decimal -/
  | num (k : Nat)
  /-- `I` -/
  | i
  /-- `[I]` -/
  | memI
  /-- `DT` -/
  | dt
  /-- `ST` -/
  | st
  /-- `K` -/
  | k
  /-- `F` -/
  | f
  /-- `B` -/
  | b
  deriving DecidableEq, Repr

/-- One line of assembler. -/
structure AsmLine where
  op       : AsmOp
  operands : List AsmOperand
  deriving DecidableEq, Repr

/-- A register operand in range. -/
def asmReg (k : Nat) : Option RegIdx := if h : k < 16 then some ⟨k, h⟩ else none

/-- A 4-bit number in range. -/
def asmImm4 (k : Nat) : Option Nibble := if WellFormed.imm4 k then some (BitVec.ofNat 4 k) else none

/-- An 8-bit number in range. -/
def asmImm8 (k : Nat) : Option Byte := if WellFormed.imm8 k then some (BitVec.ofNat 8 k) else none

/-- A 12-bit number in range. -/
def asmAddr (k : Nat) : Option Addr12 := if WellFormed.addr12 k then some (BitVec.ofNat 12 k) else none

/-- A one-register form. -/
def asmX (c : RegIdx → Instr) (x : Nat) : Option Instr := (asmReg x).map c

/-- A two-register form. -/
def asmXY (c : RegIdx → RegIdx → Instr) (x y : Nat) : Option Instr :=
  (asmReg x).bind fun a => (asmReg y).map (c a)

/-- A register and immediate form. -/
def asmXNN (c : RegIdx → Byte → Instr) (x nn : Nat) : Option Instr :=
  (asmReg x).bind fun a => (asmImm8 nn).map (c a)

/-- An address form. -/
def asmNNN (c : Addr12 → Instr) (nnn : Nat) : Option Instr := (asmAddr nnn).map c

/-- The three operands of `DRW`. -/
def asmDraw (x y n : Nat) : Option Instr :=
  (asmReg x).bind fun a => (asmReg y).bind fun b => (asmImm4 n).map (Instr.drw a b)

/-- The instruction a line stands for, by the table of R90; `none` when the line has no such form or a number is out
of range. `SHR Vx` and `SHL Vx` encode `y = 0`. -/
def assembleInstr (line : AsmLine) : Option Instr :=
  match line.op, line.operands with
  | .cls, [] => some .cls
  | .ret, [] => some .ret
  | .jp, [.num a] => asmNNN .jp a
  | .call, [.num a] => asmNNN .call a
  | .se, [.v x, .num a] => asmXNN .seImm x a
  | .sne, [.v x, .num a] => asmXNN .sneImm x a
  | .se, [.v x, .v y] => asmXY .seReg x y
  | .sne, [.v x, .v y] => asmXY .sneReg x y
  | .ld, [.v x, .num a] => asmXNN .ldImm x a
  | .add, [.v x, .num a] => asmXNN .addImm x a
  | .ld, [.v x, .v y] => asmXY .ldReg x y
  | .or, [.v x, .v y] => asmXY .or x y
  | .and, [.v x, .v y] => asmXY .and x y
  | .xor, [.v x, .v y] => asmXY .xor x y
  | .add, [.v x, .v y] => asmXY .addReg x y
  | .sub, [.v x, .v y] => asmXY .sub x y
  | .shr, [.v x] => asmXY .shr x 0
  | .shr, [.v x, .v y] => asmXY .shr x y
  | .shl, [.v x] => asmXY .shl x 0
  | .shl, [.v x, .v y] => asmXY .shl x y
  | .ld, [.i, .num a] => asmNNN .ldI a
  | .rnd, [.v x, .num a] => asmXNN .rnd x a
  | .drw, [.v x, .v y, .num n] => asmDraw x y n
  | .skp, [.v x] => asmX .skp x
  | .sknp, [.v x] => asmX .sknp x
  | .ld, [.v x, .dt] => asmX .ldVxDt x
  | .ld, [.v x, .k] => asmX .ldVxK x
  | .ld, [.dt, .v x] => asmX .ldDtVx x
  | .ld, [.st, .v x] => asmX .ldStVx x
  | .add, [.i, .v x] => asmX .addI x
  | .ld, [.f, .v x] => asmX .ldF x
  | .ld, [.b, .v x] => asmX .ldB x
  | .ld, [.memI, .v x] => asmX .ldMemI x
  | .ld, [.v x, .memI] => asmX .ldVxMemI x
  | _, _ => none

/-- The word of a line: an instruction, or the data of `DW` (R90, R91). -/
def assemble (line : AsmLine) : Option Word :=
  match line.op, line.operands with
  | .dw, [.num a] => if WellFormed.dataWord a then some (BitVec.ofNat 16 a) else none
  | _, _ => (assembleInstr line).map encode

/-- The line that stands for an instruction, with both registers of `SHR` and `SHL` written (R90). -/
def disassemble : Instr → AsmLine
  | .cls => ⟨.cls, []⟩
  | .ret => ⟨.ret, []⟩
  | .jp nnn => ⟨.jp, [.num nnn.toNat]⟩
  | .call nnn => ⟨.call, [.num nnn.toNat]⟩
  | .seImm x nn => ⟨.se, [.v x.val, .num nn.toNat]⟩
  | .sneImm x nn => ⟨.sne, [.v x.val, .num nn.toNat]⟩
  | .seReg x y => ⟨.se, [.v x.val, .v y.val]⟩
  | .ldImm x nn => ⟨.ld, [.v x.val, .num nn.toNat]⟩
  | .addImm x nn => ⟨.add, [.v x.val, .num nn.toNat]⟩
  | .ldReg x y => ⟨.ld, [.v x.val, .v y.val]⟩
  | .or x y => ⟨.or, [.v x.val, .v y.val]⟩
  | .and x y => ⟨.and, [.v x.val, .v y.val]⟩
  | .xor x y => ⟨.xor, [.v x.val, .v y.val]⟩
  | .addReg x y => ⟨.add, [.v x.val, .v y.val]⟩
  | .sub x y => ⟨.sub, [.v x.val, .v y.val]⟩
  | .shr x y => ⟨.shr, [.v x.val, .v y.val]⟩
  | .shl x y => ⟨.shl, [.v x.val, .v y.val]⟩
  | .sneReg x y => ⟨.sne, [.v x.val, .v y.val]⟩
  | .ldI nnn => ⟨.ld, [.i, .num nnn.toNat]⟩
  | .rnd x nn => ⟨.rnd, [.v x.val, .num nn.toNat]⟩
  | .drw x y n => ⟨.drw, [.v x.val, .v y.val, .num n.toNat]⟩
  | .skp x => ⟨.skp, [.v x.val]⟩
  | .sknp x => ⟨.sknp, [.v x.val]⟩
  | .ldVxDt x => ⟨.ld, [.v x.val, .dt]⟩
  | .ldVxK x => ⟨.ld, [.v x.val, .k]⟩
  | .ldDtVx x => ⟨.ld, [.dt, .v x.val]⟩
  | .ldStVx x => ⟨.ld, [.st, .v x.val]⟩
  | .addI x => ⟨.add, [.i, .v x.val]⟩
  | .ldF x => ⟨.ld, [.f, .v x.val]⟩
  | .ldB x => ⟨.ld, [.b, .v x.val]⟩
  | .ldMemI x => ⟨.ld, [.memI, .v x.val]⟩
  | .ldVxMemI x => ⟨.ld, [.v x.val, .memI]⟩

end Sys2Proof.Machine
end

