-- ==== Sys2Proof/Machine/Interface.lean ====
section
/-! DEFINITION. The host interface (60_exceptions R240, R245 to R251; 70_reset R272): every transaction of the block
with its reply. Each is atomic and the host may call them in any order between steps (20_memory R55, R61; log 7). -/

namespace Sys2Proof.Machine

/-- The two colours a pixel is exported as (R248). -/
inductive Colour where
  | opaqueWhite
  | opaqueBlack
  deriving DecidableEq, Repr

/-- The RGBA bytes of a colour (R248, D28). -/
def Colour.rgba : Colour → List Byte
  | .opaqueWhite => [255, 255, 255, 255]
  | .opaqueBlack => [0, 0, 0, 255]

/-- On is opaque white, off is opaque black (R248). -/
def pixelColour (on : Bool) : Colour := if on then .opaqueWhite else .opaqueBlack

/-- `read_framebuffer()`: row by row, row 0 first, and within a row column 0 first (R248). -/
def State.readFramebuffer (s : State) : List Colour :=
  (List.finRange 32).flatMap fun y => (List.finRange 64).map fun x => pixelColour (s.fb.pixel x y)

/-- The exported image as RGBA bytes (R248). -/
def State.framebufferRgba (s : State) : List Byte := s.readFramebuffer.flatMap Colour.rgba

/-- One tick of a timer: down by 1 unless already 0 (R240). -/
def timerTick (t : Byte) : Byte := if t = 0 then 0 else t - 1

/-- `advance_timers()`: both timers count down; the reply is ToneStop, true when this tick takes `ST` from 1 to 0
(R240, R250). It runs whether or not the core is halted (R226). -/
def State.advanceTimers (s : State) : State × Bool :=
  ({ s with dt := timerTick s.dt, st := timerTick s.st }, decide (s.st ≠ 0 ∧ timerTick s.st = 0))

/-- `load(image)` (R272): the state after, and the image's length when it is rejected with LoadOverflow (R227). -/
def State.load (s : State) (image : List Byte) : State × Option Nat :=
  if WellFormed.image image then (s.storeBytes Config.progBase image, none) else (s, some image.length)

/-- `key_press(k)` and `key_release(k)`; `none` when the keypad has no key `k` (R247). -/
def State.keySetter (s : State) (k : Nat) (down : Bool) : Option State :=
  if h : k < 16 then some (s.setKey ⟨k, h⟩ down) else none

/-- `ack_redraw()` (R249). -/
def State.ackRedraw (s : State) : State := { s with redraw := false }

/-- The transactions of R245. -/
inductive HostCall where
  | step
  | advanceTimers
  | load (image : List Byte)
  | keyPress (k : Nat)
  | keyRelease (k : Nat)
  | readFramebuffer
  | readRedraw
  | ackRedraw
  deriving DecidableEq, Repr

/-- The outputs of R245. -/
inductive HostReply where
  /-- no output, or `ok` -/
  | ok
  /-- the fault record a `step` returns (R225, R226) -/
  | stepFault (record : FaultRecord)
  /-- the `tone_stop` output of a tick (R240) -/
  | toneStop (stop : Bool)
  /-- the rejection of `load`, with its kind and the image's length (R220, R227) -/
  | loadRejected (kind : FaultKind) (length : Nat)
  /-- the pixels of `read_framebuffer` (R248) -/
  | pixels (image : List Colour)
  /-- the value of `REDRAW` (R249) -/
  | redraw (flag : Bool)
  deriving DecidableEq, Repr

/-- The result a `step` returns to the host: `FAULT` as the step left it (R33, R82). -/
def State.stepReply (s : State) : HostReply :=
  match s.fault with
  | none => .ok
  | some r => .stepFault r

/-- The `step` transaction with its reply: a halted core's state is unchanged (R226). -/
def stepTransaction (s : State) : Host.Outcome (State × HostReply) Fault Refusal :=
  match step s with
  | .next t => .next (t, t.stepReply)
  | .fault (.halted r) => .next (s, .stepFault r)
  | .refused e => .refused e

/-- A key setter with its reply, refused outside the keypad (R247, D25). -/
def keyTransaction (s : State) (k : Nat) (down : Bool) : Host.Outcome (State × HostReply) Fault Refusal :=
  match s.keySetter k down with
  | some t => .next (t, .ok)
  | none => .refused (.noSuchKey k)

/-- One transaction of the block: the state it leaves and what it returns (R245). -/
def transact (c : HostCall) (s : State) : Host.Outcome (State × HostReply) Fault Refusal :=
  match c with
  | .step => stepTransaction s
  | .advanceTimers => .next (s.advanceTimers.1, .toneStop s.advanceTimers.2)
  | .load image =>
    match s.load image with
    | (t, none) => .next (t, .ok)
    | (t, some len) => .next (t, .loadRejected .loadOverflow len)
  | .keyPress k => keyTransaction s k true
  | .keyRelease k => keyTransaction s k false
  | .readFramebuffer => .next (s, .pixels s.readFramebuffer)
  | .readRedraw => .next (s, .redraw s.redraw)
  | .ackRedraw => .next (s.ackRedraw, .ok)

/-- A host's run: transactions one after the other, ended by a refused call (R60, R61). -/
def transactAll (s : State) : List HostCall → Host.Outcome State Fault Refusal
  | [] => .next s
  | c :: cs =>
    match transact c s with
    | .next (t, _) => transactAll t cs
    | .fault f => .fault f
    | .refused e => .refused e

end Sys2Proof.Machine
end

