-- ==== Sys2Proof/Safety.lean ====
section
/-! DEFINITION. The terms claims are stated in: the invariant, the two ends of a run (70_reset R278), and what two
states have in common (frames). -/

namespace Sys2Proof.Machine

/-- A fault record is one that `step` can have left in this state: its `pc` is the core's `PC`, and the condition of
its kind holds (R221 to R225). `loadOverflow` is never recorded (R227). -/
def FaultRecord.justified (s : State) (r : FaultRecord) : Prop :=
  r.pc = s.pc ∧
  match r.kind with
  | .decodeFault => ∃ e, decodeWord r.opcode = .error e
  | .stackOverflow => s.sp.val = 16 ∧ ∃ nnn, decodeWord r.opcode = .ok (.call nnn)
  | .stackUnderflow => s.sp.val = 0 ∧ decodeWord r.opcode = .ok .ret
  | .keyIndexFault =>
    ∃ x, (decodeWord r.opcode = .ok (.skp x) ∨ decodeWord r.opcode = .ok (.sknp x)) ∧ (s.reg x).toNat > 15
  | .loadOverflow => False

/-- The invariant of the block: memory in its canonical form, and a recorded fault is justified by the state. -/
def State.Inv (s : State) : Prop :=
  Memory.wf s.font s.mem ∧ ∀ r, s.fault = some r → r.justified s

/-- A fault end of a run (R278). -/
def State.faultEnd (s : State) : Prop := s.fault ≠ none

/-- A stop end of a run: not halted, and the word at `PC < 0x1000` is a jump to its own address (R278). -/
def State.stopEnd (s : State) : Prop :=
  s.fault = none ∧ s.pc.toNat < 0x1000 ∧ s.fetchWord = (0x1000#16 ||| s.pc)

/-- The sprite with these row bytes and origin has a set bit at pixel `(px, py)`: bit 7 of a row is its leftmost pixel,
row `r` is drawn at pixel row `oy + r` (R101, R103). -/
def spriteBit (ox oy : Nat) (rows : List Byte) (px py : Nat) : Bool :=
  decide (ox ≤ px ∧ px < ox + 8 ∧ oy ≤ py ∧ py < oy + rows.length) &&
    (rows.getD (py - oy) 0).getLsbD (7 - (px - ox))

/-- The instruction's operands are the digits of the word `w` that carry them (30_encoding R84, R86). -/
def operandsAreDigitsOf (w : Nat) : Instr → Prop
  | .cls | .ret => True
  | .jp nnn | .call nnn | .ldI nnn => nnn.toNat = w % 0x1000
  | .seImm x nn | .sneImm x nn | .ldImm x nn | .addImm x nn | .rnd x nn =>
    x.val = w / 0x100 % 0x10 ∧ nn.toNat = w % 0x100
  | .seReg x y | .ldReg x y | .or x y | .and x y | .xor x y | .addReg x y | .sub x y | .shr x y | .shl x y
  | .sneReg x y => x.val = w / 0x100 % 0x10 ∧ y.val = w / 0x10 % 0x10
  | .drw x y n => x.val = w / 0x100 % 0x10 ∧ y.val = w / 0x10 % 0x10 ∧ n.toNat = w % 0x10
  | .skp x | .sknp x | .ldVxDt x | .ldVxK x | .ldDtVx x | .ldStVx x | .addI x | .ldF x | .ldB x | .ldMemI x
  | .ldVxMemI x => x.val = w / 0x100 % 0x10

/-- The instruction is a skip whose condition holds in this state (R123 to R126, R190, R191). -/
def skipTaken (s : State) : Instr → Prop
  | .seImm x nn => s.reg x = nn
  | .sneImm x nn => s.reg x ≠ nn
  | .seReg x y => s.reg x = s.reg y
  | .sneReg x y => s.reg x ≠ s.reg y
  | .skp x => ∃ k : Fin 16, (s.reg x).toNat = k.val ∧ s.keyDown k = true
  | .sknp x => ∃ k : Fin 16, (s.reg x).toNat = k.val ∧ s.keyDown k = false
  | .cls | .ret | .jp _ | .call _ | .ldImm _ _ | .addImm _ _ | .ldReg _ _ | .or _ _ | .and _ _ | .xor _ _
  | .addReg _ _ | .sub _ _ | .shr _ _ | .shl _ _ | .ldI _ | .rnd _ _ | .drw _ _ _ | .ldVxDt _ | .ldVxK _ | .ldDtVx _
  | .ldStVx _ | .addI _ | .ldF _ | .ldB _ | .ldMemI _ | .ldVxMemI _ => False

/-- The instruction is FX0A and no key is pressed: it goes back to itself (R193). -/
def keyWaiting (s : State) (i : Instr) : Prop := (∃ x, i = .ldVxK x) ∧ ∀ k, s.keyDown k = false

/-- A fetch in this state that takes its high (low) byte from address `a` takes `b` there (20_memory R52, R64). -/
def fetchSees (s : State) (a : Nat) (b : Byte) : Prop :=
  (memIndex s.pc.toNat = memIndex a → s.fetchWord.toNat / 256 = b.toNat) ∧
  (memIndex (s.pc.toNat + 1) = memIndex a → s.fetchWord.toNat % 256 = b.toNat)

/-- The general registers other than those named are the same. -/
def SameRegsBut (names : RegIdx → Prop) (s t : State) : Prop := ∀ k, ¬ names k → t.reg k = s.reg k

/-- Every register is the same. -/
def SameRegs (s t : State) : Prop := SameRegsBut (fun _ => False) s t

/-- Every byte of memory reads the same. -/
def SameMemory (s t : State) : Prop := ∀ a, t.byteAt a = s.byteAt a

/-- Every byte of memory outside the `len` bytes from `a` on (each reduced mod 4096) reads the same. -/
def SameMemoryOutside (a len : Nat) (s t : State) : Prop :=
  ∀ b, (∀ k, k < len → memIndex (a + k) ≠ memIndex b) → t.byteAt b = s.byteAt b

/-- Call stack and its pointer are the same. -/
def SameStack (s t : State) : Prop := t.sp = s.sp ∧ t.stack = s.stack

/-- Both timers are the same. -/
def SameTimers (s t : State) : Prop := t.dt = s.dt ∧ t.st = s.st

/-- Framebuffer and redraw flag are the same. -/
def SameDisplay (s t : State) : Prop := t.fb = s.fb ∧ t.redraw = s.redraw

/-- Keypad and `FAULT` are the same, and the parameter `FONT`. -/
def SameInputs (s t : State) : Prop := t.keys = s.keys ∧ t.fault = s.fault ∧ t.font = s.font

/-- Everything outside the general registers, `I`, `PC` and the display is the same, memory and draws included. -/
def SameRest (s t : State) : Prop :=
  SameMemory s t ∧ SameStack s t ∧ SameTimers s t ∧ SameInputs s t ∧ t.draws = s.draws

/-- Only the named general registers may differ. -/
def OnlyRegs (names : RegIdx → Prop) (s t : State) : Prop :=
  SameRegsBut names s t ∧ t.i = s.i ∧ t.pc = s.pc ∧ SameDisplay s t ∧ SameRest s t

/-- Only `I` may differ. -/
def OnlyI (s t : State) : Prop := SameRegs s t ∧ t.pc = s.pc ∧ SameDisplay s t ∧ SameRest s t

/-- Only `PC` may differ. -/
def OnlyPc (s t : State) : Prop := SameRegs s t ∧ t.i = s.i ∧ SameDisplay s t ∧ SameRest s t

/-- Only `PC`, `SP` and the call stack may differ. -/
def OnlyPcAndStack (s t : State) : Prop :=
  SameRegs s t ∧ t.i = s.i ∧ SameDisplay s t ∧ SameMemory s t ∧ SameTimers s t ∧ SameInputs s t ∧ t.draws = s.draws

/-- Only the `len` bytes of memory from address `a` on, and `I`, may differ. -/
def OnlyMemoryAndI (a len : Nat) (s t : State) : Prop :=
  SameRegs s t ∧ t.pc = s.pc ∧ SameDisplay s t ∧ SameMemoryOutside a len s t ∧ SameStack s t ∧ SameTimers s t ∧
    SameInputs s t ∧ t.draws = s.draws

/-- Only the timers may differ. -/
def OnlyTimers (s t : State) : Prop :=
  SameRegs s t ∧ t.i = s.i ∧ t.pc = s.pc ∧ SameDisplay s t ∧ SameMemory s t ∧ SameStack s t ∧ SameInputs s t ∧
    t.draws = s.draws

/-- The instruction runs in every state, puts `value` in `V[x]` and changes nothing else. -/
def WritesOneReg (ins : Instr) (x : RegIdx) (value : State → Nat) : Prop :=
  ∀ s, ∃ t, exec ins s = .next t ∧ (t.reg x).toNat = value s ∧ OnlyRegs (fun k => k = x) s t

/-- The instruction runs in every state, puts `value` in `I` and changes nothing else. -/
def WritesOnlyI (ins : Instr) (value : State → Nat) : Prop :=
  ∀ s, ∃ t, exec ins s = .next t ∧ t.i.toNat = value s ∧ OnlyI s t

/-- The instruction adds 2 to `PC` (mod 65536) in the states where the condition holds, and changes nothing else, in
every state that meets `pre`. -/
def SkipsWhen (ins : Instr) (pre cond : State → Prop) : Prop :=
  ∀ s, pre s → ∃ t, exec ins s = .next t ∧
    (cond s → t.pc.toNat = (s.pc.toNat + 2) % 65536) ∧ (¬ cond s → t.pc = s.pc) ∧ OnlyPc s t

end Sys2Proof.Machine
end

