-- ==== Sys2Proof/Certificates/Slice0/Obligations.lean ====
section
/-! DEFINITION. The statements for the provers, from the spec's numbered rules. Each docstring names its rule. -/

open Sys2Proof Sys2Proof.Machine

/-! ### Reset, the invariant, totality -/

/-- 10_state R38: the power-on state. That memory above the font is zero and that `FAULT` exists are the spec's own
decisions D17 and D12. -/
def Obligations.ResetHoldsTheSpecValues : Prop :=
  (∀ k, State.reset.reg k = 0) ∧ State.reset.i = 0 ∧ State.reset.pc = 0x200#16 ∧ State.reset.sp.val = 0 ∧
  (∀ k : Fin 16, State.reset.stack.get k = 0) ∧ State.reset.dt = 0 ∧ State.reset.st = 0 ∧
  (∀ a, (h : a < 80) → State.reset.byteAt a = State.reset.font[a]) ∧
  (∀ a, 80 ≤ a → a < 4096 → State.reset.byteAt a = 0) ∧
  (∀ x y, State.reset.fb.pixel x y = false) ∧ State.reset.redraw = false ∧
  (∀ k, State.reset.keyDown k = false) ∧ State.reset.fault = none

/-- The invariant holds at power-on. -/
def Obligations.ResetMeetsTheInvariant : Prop := State.reset.Inv

/-- Every step keeps the invariant: memory stays canonical, and a recorded fault is one the state justifies
(60_exceptions R221 to R225). The stack faults, the state after a fault and KeyIndexFault are the spec's own decisions
D11, D12 and D10. -/
def Obligations.StepKeepsTheInvariant : Prop :=
  ∀ s t : State, s.Inv → step s = .next t → t.Inv

/-- Every run of host transactions, in any order, keeps the invariant (20_memory R60, R61; 60_exceptions R245).
The transactions beside `step` are functions of the model (log 7); that every order is admitted is the spec's own
decision D21. -/
def Obligations.HostRunsKeepTheInvariant : Prop :=
  ∀ (calls : List HostCall) (s t : State), s.Inv → transactAll s calls = .next t → t.Inv

/-- No state that is not halted stops the model: `step` answers a next state, never a fault or a refusal (R82). A fault
that the spec describes is a next state (log 3; the spec's own decision D12). -/
def Obligations.StepOfARunningCoreAnswersNext : Prop :=
  ∀ s : State, s.fault = none → ∃ t, step s = .next t

/-- The canonical form decides memory: two canonical memories that read alike at every index are the same list. -/
def Obligations.MemoriesThatReadAlikeAreEqual : Prop :=
  ∀ (font : Vector Byte 80) (m m' : Memory), Memory.wf font m → Memory.wf font m' →
    (∀ a, a < 4096 → Memory.read font m a = Memory.read font m' a) → m = m'

/-! ### Encoding -/

/-- Decoding an encoded instruction gives it back, with the bytes after it (30_encoding R80 to R87). That fixed digits
are opcode digits is the spec's own decision D4. -/
def Obligations.DecodeOfEncodeIsTheInstruction : Prop :=
  ∀ (i : Instr) (rest : List Byte), i.wf = true → decode (encodeBytes i ++ rest) = .ok (i, rest)

/-- Every word has one meaning: the word of what a word decodes to is that word (R86, R89; the spec's own decision
D4). -/
def Obligations.EncodeOfDecodeIsTheWord : Prop :=
  ∀ (w : Word) (i : Instr), decodeWord w = .ok i → encode i = w

/-- 30_encoding R86: a word is the instruction of a row when `op & mask = match`, and the rows are disjoint (R87). That
the fixed low digit of 5XY0 and 9XY0 is an opcode digit is the spec's own decision D4. -/
def Obligations.DecodeFollowsTheOpcodeMap : Prop :=
  (∀ (w : Word) (i : Instr), decodeWord w = .ok i →
    ∃ r ∈ opcodeTable, r.mnemonic = i.mnemonic ∧ w &&& r.mask = r.value) ∧
  (∀ (w : Word) (r : OpcodeRow), r ∈ opcodeTable → w &&& r.mask = r.value →
    ∃ i, decodeWord w = .ok i ∧ i.mnemonic = r.mnemonic) ∧
  (∀ (w : Word) (r r' : OpcodeRow), r ∈ opcodeTable → r' ∈ opcodeTable →
    w &&& r.mask = r.value → w &&& r'.mask = r'.value → r = r')

/-- 30_encoding R84: the fields of a word, and that a decoded instruction's operands are those digits of its word. -/
def Obligations.OperandsComeFromTheirFields : Prop :=
  ∀ w : Word,
    (fieldX w).val = w.toNat / 0x100 % 0x10 ∧ (fieldY w).val = w.toNat / 0x10 % 0x10 ∧
    (fieldN w).toNat = w.toNat % 0x10 ∧ (fieldNN w).toNat = w.toNat % 0x100 ∧
    (fieldNNN w).toNat = w.toNat % 0x1000 ∧
    ∀ i, decodeWord w = .ok i → operandsAreDigitsOf w.toNat i

/-- 30_encoding R88: the illegal words, class by class, and that a running core that fetches one takes DecodeFault
with nothing else changed. That these words are illegal rather than read loosely is the spec's own decision D4; that
the state before the step is kept and the fault recorded is its decision D12. -/
def Obligations.IllegalWordsTakeDecodeFault : Prop :=
  ∀ (s : State) (w : Nat), s.fault = none → s.fetchWord.toNat = w →
    ((w < 0x1000 ∧ w ≠ 0x00E0 ∧ w ≠ 0x00EE) ∨
     (w / 0x1000 = 5 ∧ w % 0x10 ≠ 0) ∨ (w / 0x1000 = 9 ∧ w % 0x10 ≠ 0) ∨
     (w / 0x1000 = 8 ∧ w % 0x10 ∈ [7, 8, 9, 0xA, 0xB, 0xC, 0xD, 0xF]) ∨
     w / 0x1000 = 0xB ∨
     (w / 0x1000 = 0xE ∧ w % 0x100 ∉ [0x9E, 0xA1]) ∨
     (w / 0x1000 = 0xF ∧ w % 0x100 ∉ [0x07, 0x0A, 0x15, 0x18, 0x1E, 0x29, 0x33, 0x55, 0x65]) ↔
     step s = .next { s with fault := some ⟨.decodeFault, s.fetchWord, s.pc⟩ })

/-- Words written out from R86 decode to what they stand for: one for each high nibble (R81) that has an instruction,
and both words of nibble 0. Nibble B has none (R88). -/
def Obligations.WrittenOutWordsDecode : Prop :=
  decodeWord 0x00E0#16 = .ok .cls ∧ decodeWord 0x00EE#16 = .ok .ret ∧ decodeWord 0x1234#16 = .ok (.jp 0x234#12) ∧
  decodeWord 0x220A#16 = .ok (.call 0x20A#12) ∧ decodeWord 0x3310#16 = .ok (.seImm 3 0x10#8) ∧
  decodeWord 0x4310#16 = .ok (.sneImm 3 0x10#8) ∧ decodeWord 0x5120#16 = .ok (.seReg 1 2) ∧
  decodeWord 0x6A2B#16 = .ok (.ldImm 0xA 0x2B#8) ∧ decodeWord 0x71FF#16 = .ok (.addImm 1 0xFF#8) ∧
  decodeWord 0x8AB4#16 = .ok (.addReg 0xA 0xB) ∧ decodeWord 0x9120#16 = .ok (.sneReg 1 2) ∧
  decodeWord 0xA300#16 = .ok (.ldI 0x300#12) ∧ decodeWord 0xC30F#16 = .ok (.rnd 3 0x0F#8) ∧
  decodeWord 0xD125#16 = .ok (.drw 1 2 5#4) ∧ decodeWord 0xE29E#16 = .ok (.skp 2) ∧
  decodeWord 0xF265#16 = .ok (.ldVxMemI 2)

/-- 30_encoding R90: assembling an instruction's assembler line gives its word. The syntax is the spec's own decision
D26; that it is modelled as abstract syntax is the model's choice (log 9). -/
def Obligations.AssembleOfDisassembleIsTheWord : Prop :=
  ∀ i : Instr, assemble (disassemble i) = some (encode i)

/-- 30_encoding R90: the assembler refuses numbers out of range (decision D26, log 9). -/
def Obligations.AssemblerRefusesNumbersOutOfRange : Prop :=
  (∀ a, a > 0xFFF → assemble ⟨.jp, [.num a]⟩ = none ∧ assemble ⟨.call, [.num a]⟩ = none ∧
    assemble ⟨.ld, [.i, .num a]⟩ = none) ∧
  (∀ x a, a > 0xFF → assemble ⟨.ld, [.v x, .num a]⟩ = none ∧ assemble ⟨.add, [.v x, .num a]⟩ = none ∧
    assemble ⟨.se, [.v x, .num a]⟩ = none ∧ assemble ⟨.sne, [.v x, .num a]⟩ = none ∧
    assemble ⟨.rnd, [.v x, .num a]⟩ = none) ∧
  (∀ x y a, a > 0xF → assemble ⟨.drw, [.v x, .v y, .num a]⟩ = none)

/-! ### The step -/

/-- 30_encoding R83: the fetched word is big-endian, both addresses reduced mod 4096 (the spec's own decision D2). -/
def Obligations.FetchReadsTwoBytesBigEndian : Prop :=
  ∀ s : State, s.fetchWord.toNat =
    (s.byteAt (s.pc.toNat % 4096)).toNat * 256 + (s.byteAt ((s.pc.toNat + 1) % 4096)).toNat

/-- 30_encoding R82: a running core executes the instruction its word decodes to, with `PC` advanced by 2. -/
def Obligations.StepRunsTheDecodedInstruction : Prop :=
  ∀ (s : State) (i : Instr) (rest : List Byte), s.fault = none →
    decode (s.byteAt s.pc.toNat :: s.byteAt (s.pc.toNat + 1) :: rest) = .ok (i, rest) →
    step s = exec i { s with pc := s.pc + 2 }

/-- 60_exceptions R225: a step that ends in a fault keeps the state before it and records kind, word and `pc_i` (the
spec's own decision D12; the next-state form is the model's, log 3). -/
def Obligations.AFaultingStepCommitsNothing : Prop :=
  ∀ (s t : State) (r : FaultRecord), s.fault = none → step s = .next t → t.fault = some r →
    t = { s with fault := some r } ∧ r.opcode = s.fetchWord ∧ r.pc = s.pc

/-- 60_exceptions R228: decoding comes first, and an instruction can raise only its own kind, under its condition.
The stack faults are the spec's own decision D11, KeyIndexFault its decision D10, and the words that decode to nothing
follow its decision D4. -/
def Obligations.EachFaultHasItsOwnCause : Prop :=
  ∀ (s t : State) (r : FaultRecord), s.fault = none → step s = .next t → t.fault = some r →
    (r.kind = .decodeFault ∧ (∀ i, decodeWord s.fetchWord ≠ .ok i)) ∨
    (r.kind = .stackOverflow ∧ (∃ nnn, decodeWord s.fetchWord = .ok (.call nnn)) ∧ s.sp.val = 16) ∨
    (r.kind = .stackUnderflow ∧ decodeWord s.fetchWord = .ok .ret ∧ s.sp.val = 0) ∨
    (r.kind = .keyIndexFault ∧
      ∃ x, (decodeWord s.fetchWord = .ok (.skp x) ∨ decodeWord s.fetchWord = .ok (.sknp x)) ∧ (s.reg x).toNat > 15)

/-- 60_exceptions R226: a halted core returns its recorded fault and changes nothing, no transaction clears `FAULT`,
and every other transaction of the block answers as it does on a core that is not halted (the spec's own decision D14;
the halted step's outcome in the model is a named fault, log 4). -/
def Obligations.AHaltedCoreStaysHalted : Prop :=
  ∀ (s : State) (r : FaultRecord), s.fault = some r →
    step s = .fault (.halted r) ∧ transact .step s = .next (s, .stepFault r) ∧
    (∀ (c : HostCall) (t : State) (reply : HostReply), transact c s = .next (t, reply) → t.fault = some r) ∧
    (∀ (c : HostCall) (t : State) (reply : HostReply), c ≠ .step →
      (transact c s = .next ({ t with fault := some r }, reply) ↔
       transact c { s with fault := none } = .next ({ t with fault := none }, reply)))

/-! ### Register loads, logic and arithmetic -/

/-- 42_alu R141 to R143 and 44_keypad_timers R192: one register is written, no flag, nothing else. -/
def Obligations.LoadsWriteOneRegister : Prop :=
  (∀ x nn, WritesOneReg (.ldImm x nn) x fun _ => nn.toNat) ∧
  (∀ x nn, WritesOneReg (.addImm x nn) x fun s => ((s.reg x).toNat + nn.toNat) % 256) ∧
  (∀ x y, WritesOneReg (.ldReg x y) x fun s => (s.reg y).toNat) ∧
  (∀ x, WritesOneReg (.ldVxDt x) x fun s => s.dt.toNat)

/-- 42_alu R144 to R146: bit by bit, no flag and nothing else. That `VF` keeps its value unless it is the destination is
the spec's own decision D30. -/
def Obligations.LogicWritesOneRegister : Prop :=
  (∀ x y, WritesOneReg (.or x y) x fun s => (s.reg x).toNat ||| (s.reg y).toNat) ∧
  (∀ x y, WritesOneReg (.and x y) x fun s => (s.reg x).toNat &&& (s.reg y).toNat) ∧
  (∀ x y, WritesOneReg (.xor x y) x fun s => (s.reg x).toNat ^^^ (s.reg y).toNat)

/-- 42_alu R147 with its corner cases: carry to `VF` first, then the sum from the registers as `VF` left them.
The clauses with `x` or `y` 15 rest on the spec's own decision D5. -/
def Obligations.AddSetsCarryThenSum : Prop :=
  ∀ (x y : RegIdx) (s : State), ∃ t, exec (.addReg x y) s = .next t ∧
    (let a := (s.reg x).toNat
     let b := (s.reg y).toNat
     let c := if a + b > 255 then 1 else 0
     (x ≠ 15 → y ≠ 15 → (t.reg x).toNat = (a + b) % 256 ∧ (t.reg 15).toNat = c) ∧
     (x = 15 → y ≠ 15 → (t.reg 15).toNat = (c + b) % 256) ∧
     (x ≠ 15 → y = 15 → (t.reg x).toNat = (a + c) % 256 ∧ (t.reg 15).toNat = c) ∧
     (x = 15 → y = 15 → (t.reg 15).toNat = 2 * c % 256)) ∧
    OnlyRegs (fun k => k = x ∨ k = 15) s t

/-- 42_alu R148 with its corner cases: `VF` is 1 when `V[x] > V[y]` strictly, then the difference mod 256.
The clauses with `x` or `y` 15 rest on the spec's own decision D5. -/
def Obligations.SubSetsGreaterThenDifference : Prop :=
  ∀ (x y : RegIdx) (s : State), ∃ t, exec (.sub x y) s = .next t ∧
    (let a := (s.reg x).toNat
     let b := (s.reg y).toNat
     let c := if a > b then 1 else 0
     (x ≠ 15 → y ≠ 15 → (t.reg x).toNat = (a + 256 - b) % 256 ∧ (t.reg 15).toNat = c) ∧
     (x = 15 → y ≠ 15 → (t.reg 15).toNat = (c + 256 - b) % 256) ∧
     (x ≠ 15 → y = 15 → (t.reg x).toNat = (a + 256 - c) % 256 ∧ (t.reg 15).toNat = c) ∧
     (x = 15 → y = 15 → (t.reg 15).toNat = 0)) ∧
    OnlyRegs (fun k => k = x ∨ k = 15) s t

/-- 42_alu R149: the low bit of `V[x]` to `VF`, then `V[x] >> 1`; `y` plays no part; `x = 0xF` leaves 0
(the spec's own decision D5). -/
def Obligations.ShrSetsLowBitThenShifts : Prop :=
  ∀ (x y : RegIdx) (s : State), ∃ t, exec (.shr x y) s = .next t ∧
    (x ≠ 15 → (t.reg x).toNat = (s.reg x).toNat / 2 ∧ (t.reg 15).toNat = (s.reg x).toNat % 2) ∧
    (x = 15 → (t.reg 15).toNat = 0) ∧
    OnlyRegs (fun k => k = x ∨ k = 15) s t

/-- 42_alu R150: `V[x] & 0x80` (0x00 or 0x80) to `VF`, then `V[x] << 1` mod 256; `y` plays no part; `x = 0xF` leaves
0 (the spec's own decision D5). -/
def Obligations.ShlSetsHighBitThenShifts : Prop :=
  ∀ (x y : RegIdx) (s : State), ∃ t, exec (.shl x y) s = .next t ∧
    (x ≠ 15 → (t.reg x).toNat = (s.reg x).toNat * 2 % 256 ∧
      (t.reg 15).toNat = if (s.reg x).toNat ≥ 0x80 then 0x80 else 0) ∧
    (x = 15 → (t.reg 15).toNat = 0) ∧
    OnlyRegs (fun k => k = x ∨ k = 15) s t

/-- 42_alu R151: `V[x]` is the drawn byte AND `nn`. The byte is free: the model's form of the draw (log 2) is a stream
of which nothing is known, read at the count of draws so far, which goes up by 1; that the draw is free is the spec's own
decision D20. -/
def Obligations.RndMasksOneFreeByte : Prop :=
  ∀ (x : RegIdx) (nn : Byte) (s : State), ∃ t, exec (.rnd x nn) s = .next t ∧
    t.reg x = Config.rand8 s.draws &&& nn ∧ (nn = 0 → t.reg x = 0) ∧ t.reg x &&& ~~~nn = 0 ∧
    SameRegsBut (fun k => k = x) s t ∧ t.i = s.i ∧ t.pc = s.pc ∧ SameDisplay s t ∧ SameMemory s t ∧
    SameStack s t ∧ SameTimers s t ∧ SameInputs s t ∧ t.draws = s.draws + 1

/-- 60_exceptions R246: the random byte is used by CXNN only. Every other instruction does the same whatever is drawn
next (the model's `draws`, log 2; the spec's own decision D20). -/
def Obligations.OnlyRndUsesTheRandomSource : Prop :=
  ∀ (i : Instr) (s t : State) (n : Nat), (∀ x nn, i ≠ .rnd x nn) → exec i s = .next t →
    exec i { s with draws := n } = .next { t with draws := n }

/-! ### Index register and memory -/

/-- 43_index_memory R170, R172: what `I` becomes; no flag, nothing else. -/
def Obligations.IndexLoadsWriteOnlyI : Prop :=
  (∀ nnn, WritesOnlyI (.ldI nnn) fun _ => nnn.toNat) ∧
  (∀ x, WritesOnlyI (.ldF x) fun s => (s.reg x).toNat * 5)

/-- 43_index_memory R171: `I` wraps mod 65536 (the spec's own decision D2), no flag, nothing else. -/
def Obligations.IndexAddWritesOnlyI : Prop :=
  ∀ x, WritesOnlyI (.addI x) fun s => (s.i.toNat + (s.reg x).toNat) % 65536

/-- 43_index_memory R173: three decimal digits, hundreds at `I`; `I` is unchanged. -/
def Obligations.BcdStoresThreeDigits : Prop :=
  ∀ (x : RegIdx) (s : State), ∃ t, exec (.ldB x) s = .next t ∧
    (t.byteAt s.i.toNat).toNat = (s.reg x).toNat / 100 ∧
    (t.byteAt (s.i.toNat + 1)).toNat = (s.reg x).toNat / 10 % 10 ∧
    (t.byteAt (s.i.toNat + 2)).toNat = (s.reg x).toNat % 10 ∧
    t.i = s.i ∧ OnlyMemoryAndI s.i.toNat 3 s t

/-- 43_index_memory R174: `V[0]` to `V[x]` from `I` on, then `I` advances by `x + 1` mod 65536 (decision D2). -/
def Obligations.StoreRegistersToMemory : Prop :=
  ∀ (x : RegIdx) (s : State), ∃ t, exec (.ldMemI x) s = .next t ∧
    (∀ k : RegIdx, k ≤ x → t.byteAt (s.i.toNat + k.val) = s.reg k) ∧
    t.i.toNat = (s.i.toNat + x.val + 1) % 65536 ∧ OnlyMemoryAndI s.i.toNat (x.val + 1) s t

/-- 43_index_memory R175: `V[0]` to `V[x]` from the bytes at `I` on, then `I` advances by `x + 1` mod 65536. -/
def Obligations.LoadRegistersFromMemory : Prop :=
  ∀ (x : RegIdx) (s : State), ∃ t, exec (.ldVxMemI x) s = .next t ∧
    (∀ k : RegIdx, k ≤ x → t.reg k = s.byteAt (s.i.toNat + k.val)) ∧
    t.i.toNat = (s.i.toNat + x.val + 1) % 65536 ∧
    SameRegsBut (fun k => k ≤ x) s t ∧ t.pc = s.pc ∧ SameDisplay s t ∧ SameRest s t

/-- 95_test_vectors S6: FX55, then FX65 from the same address in any later state that reads the same memory. -/
def Obligations.StoreThenLoadGivesTheRegistersBack : Prop :=
  ∀ (x : RegIdx) (s t u : State), exec (.ldMemI x) s = .next t → SameMemory t u → u.i = s.i →
    ∃ w, exec (.ldVxMemI x) u = .next w ∧ (∀ k : RegIdx, k ≤ x → w.reg k = s.reg k) ∧ w.i = t.i

/-- 20_memory R64: the next fetch that takes a byte from where FX55, FX33 or `load` stored one sees that byte, as the
high or as the low byte of its word, in every state that reads the same memory. With `PC` at the store's first address
the word is the first two bytes stored. The addresses are reduced mod 4096 (the spec's own decision D2). -/
def Obligations.AStoreIsSeenByTheNextFetch : Prop :=
  (∀ (x : RegIdx) (s t u : State), exec (.ldMemI x) s = .next t → SameMemory t u →
    (∀ k : RegIdx, k ≤ x → fetchSees u (s.i.toNat + k.val) (s.reg k)) ∧
    (1 ≤ x → memIndex u.pc.toNat = memIndex s.i.toNat →
      u.fetchWord.toNat = (s.reg 0).toNat * 256 + (s.reg 1).toNat)) ∧
  (∀ (x : RegIdx) (s t u : State), exec (.ldB x) s = .next t → SameMemory t u →
    fetchSees u s.i.toNat (BitVec.ofNat 8 ((s.reg x).toNat / 100)) ∧
    fetchSees u (s.i.toNat + 1) (BitVec.ofNat 8 ((s.reg x).toNat / 10 % 10)) ∧
    fetchSees u (s.i.toNat + 2) (BitVec.ofNat 8 ((s.reg x).toNat % 10))) ∧
  (∀ (image : List Byte) (s t u : State), transact (.load image) s = .next (t, .ok) → SameMemory t u →
    ∀ k, (h : k < image.length) → fetchSees u (0x200 + k) image[k])

/-! ### Display -/

/-- 40_display R100: every pixel off and `REDRAW` set, whatever was on; nothing else. -/
def Obligations.ClsClearsTheFramebuffer : Prop :=
  ∀ s : State, ∃ t, exec .cls s = .next t ∧ (∀ x y, t.fb.pixel x y = false) ∧ t.redraw = true ∧
    SameRegs s t ∧ t.i = s.i ∧ t.pc = s.pc ∧ SameRest s t

/-- 40_display R101: DXYN in closed form. With the origin from the registers before `VF` is written, every pixel of the
grid is exclusive-ored with the sprite's bit there, and `VF` is 1 exactly when a set bit fell on an on pixel. Reading the
origin before `VF` is written is the spec's own decision D6, and `REDRAW` set for `n = 0` its decision D7. -/
def Obligations.DrwDrawsTheSprite : Prop :=
  ∀ (x y : RegIdx) (n : Nibble) (s : State), ∃ t rows, exec (.drw x y n) s = .next t ∧
    rows.length = n.toNat ∧ (∀ r, (h : r < rows.length) → rows[r] = s.byteAt (s.i.toNat + r)) ∧
    (let ox := (s.reg x).toNat % 64
     let oy := (s.reg y).toNat % 32
     (∀ px py, t.fb.pixel px py = (s.fb.pixel px py ^^ spriteBit ox oy rows px.val py.val)) ∧
     ((∃ px py, s.fb.pixel px py = true ∧ spriteBit ox oy rows px.val py.val = true) → t.reg 15 = 1) ∧
     ((∀ px py, s.fb.pixel px py = true → spriteBit ox oy rows px.val py.val = false) → t.reg 15 = 0)) ∧
    t.redraw = true ∧ SameRegsBut (fun k => k = 15) s t ∧ t.i = s.i ∧ t.pc = s.pc ∧ SameRest s t

/-- 40_display R102: bits of the sprite outside the grid change no pixel and do not set `VF`; in particular nothing
left of or above the origin changes (no wrap). The origin is that of the registers before `VF` is written (the spec's own
decision D6). -/
def Obligations.DrwClipsAtTheEdges : Prop :=
  ∀ (x y : RegIdx) (n : Nibble) (s t : State), exec (.drw x y n) s = .next t →
    (∀ (px : Fin 64) (py : Fin 32), px.val < (s.reg x).toNat % 64 ∨ py.val < (s.reg y).toNat % 32 →
      t.fb.pixel px py = s.fb.pixel px py) ∧
    ((∀ (px : Fin 64) (py : Fin 32), (s.reg x).toNat % 64 ≤ px.val → (s.reg y).toNat % 32 ≤ py.val →
        s.fb.pixel px py = false) → t.reg 15 = 0)

/-- 40_display R101, corner case: drawing the same sprite twice at the same origin restores the framebuffer. The second
draw reports a collision exactly when the first one turned a pixel on: that is what the pseudocode says, and the corner
case's own words ("if any set bit was inside the grid") hold only where the first draw turned some pixel on (log 10). The
origin is read before `VF` is written (the spec's own decision D6). -/
def Obligations.DrawingTwiceRestores : Prop :=
  ∀ (x y : RegIdx) (n : Nibble) (s t u w : State), exec (.drw x y n) s = .next t → u.fb = t.fb →
    SameMemory s u → u.i = s.i → u.reg x = s.reg x → u.reg y = s.reg y → exec (.drw x y n) u = .next w →
    w.fb = s.fb ∧ (w.reg 15 = 1 ↔ ∃ px py, s.fb.pixel px py = false ∧ t.fb.pixel px py = true)

/-- 40_display R104: every DXYN sets `REDRAW`; with `n = 0` no row is drawn and `VF` is 0 (the spec's own
decision D7). -/
def Obligations.EveryDrawSetsRedraw : Prop :=
  ∀ (x y : RegIdx) (n : Nibble) (s : State), ∃ t, exec (.drw x y n) s = .next t ∧ t.redraw = true ∧
    (n = 0 → t.fb = s.fb ∧ t.reg 15 = 0)

/-! ### Control flow -/

/-- 41_control_flow R121: `PC` becomes `nnn`; nothing else. -/
def Obligations.JpSetsPc : Prop :=
  ∀ (nnn : Addr12) (s : State), ∃ t, exec (.jp nnn) s = .next t ∧ t.pc.toNat = nnn.toNat ∧ OnlyPc s t

/-- 41_control_flow R122: below 16 entries, the address after the call is pushed and `PC` becomes `nnn`; at 16 the
state before the step is kept and StackOverflow recorded (the spec's own decisions D11, D12). -/
def Obligations.CallPushesOrOverflows : Prop :=
  ∀ (nnn : Addr12) (s : State),
    (s.sp.val < 16 → ∃ t, exec (.call nnn) s = .next t ∧ t.pc.toNat = nnn.toNat ∧ t.sp.val = s.sp.val + 1 ∧
      (∀ k : Fin 16, t.stack.get k = if k.val = s.sp.val then s.pc else s.stack.get k) ∧ OnlyPcAndStack s t) ∧
    (s.sp.val = 16 → exec (.call nnn) s =
      .next { s with pc := s.pc - 2, fault := some ⟨.stackOverflow, encode (.call nnn), s.pc - 2⟩ })

/-- 41_control_flow R120: with entries in use, `SP` goes down and `PC` becomes the entry there, which keeps its value;
with none the state before the step is kept and StackUnderflow recorded (the spec's own decisions D11, D12,
D15). -/
def Obligations.RetPopsOrUnderflows : Prop :=
  ∀ s : State,
    (∀ k : Fin 16, s.sp.val = k.val + 1 → ∃ t, exec .ret s = .next t ∧ t.sp.val = k.val ∧
      t.pc = s.stack.get k ∧ t.stack = s.stack ∧ OnlyPcAndStack s t) ∧
    (s.sp.val = 0 → exec .ret s =
      .next { s with pc := s.pc - 2, fault := some ⟨.stackUnderflow, encode .ret, s.pc - 2⟩ })

/-- 95_test_vectors S7: a call that does not overflow, then (when the subroutine left the stack as it found it) a
return, comes back to the instruction after the call with the stack pointer as before. -/
def Obligations.ReturnComesBackAfterTheCall : Prop :=
  ∀ (nnn : Addr12) (s t u : State), s.sp.val < 16 → exec (.call nnn) s = .next t → u.sp = t.sp → u.stack = t.stack →
    ∃ w, exec .ret u = .next w ∧ w.pc = s.pc ∧ w.sp = s.sp

/-- 41_control_flow R123 to R126, R128: the four register skips. -/
def Obligations.RegisterSkips : Prop :=
  (∀ x nn, SkipsWhen (.seImm x nn) (fun _ => True) fun s => s.reg x = nn) ∧
  (∀ x nn, SkipsWhen (.sneImm x nn) (fun _ => True) fun s => s.reg x ≠ nn) ∧
  (∀ x y, SkipsWhen (.seReg x y) (fun _ => True) fun s => s.reg x = s.reg y) ∧
  (∀ x y, SkipsWhen (.sneReg x y) (fun _ => True) fun s => s.reg x ≠ s.reg y)

/-! ### Keypad and timers -/

/-- 44_keypad_timers R190, R191, 60_exceptions R224: the key skips, for a register value that names a key; a value
above 15 keeps the state before the step and records KeyIndexFault (the spec's own decision D10). -/
def Obligations.KeySkipsOrKeyIndexFault : Prop :=
  (∀ (x : RegIdx) (k : Fin 16),
    SkipsWhen (.skp x) (fun s => (s.reg x).toNat = k.val) (fun s => s.keyDown k = true) ∧
    SkipsWhen (.sknp x) (fun s => (s.reg x).toNat = k.val) (fun s => s.keyDown k = false)) ∧
  (∀ (x : RegIdx) (s : State), (s.reg x).toNat > 15 →
    exec (.skp x) s = .next { s with pc := s.pc - 2, fault := some ⟨.keyIndexFault, encode (.skp x), s.pc - 2⟩ } ∧
    exec (.sknp x) s = .next { s with pc := s.pc - 2, fault := some ⟨.keyIndexFault, encode (.sknp x), s.pc - 2⟩ })

/-- 44_keypad_timers R193: with a key pressed, `V[x]` gets the highest pressed index, and nothing else changes; with
none, the instruction only takes the fetch's 2 off `PC`. The highest index and the test on the level are the spec's own
decisions D8 and D9. -/
def Obligations.WaitKeyTakesTheHighestKey : Prop :=
  ∀ (x : RegIdx) (s : State),
    (∀ k : Fin 16, s.keyDown k = true → (∀ j, k < j → s.keyDown j = false) →
      ∃ t, exec (.ldVxK x) s = .next t ∧ (t.reg x).toNat = k.val ∧ OnlyRegs (fun j => j = x) s t) ∧
    ((∀ k, s.keyDown k = false) →
      ∃ t, exec (.ldVxK x) s = .next t ∧ t.pc.toNat = (s.pc.toNat + 65536 - 2) % 65536 ∧ OnlyPc s t)

/-- 70_reset R276: a step of FX0A with no key pressed leaves the whole state as it was. -/
def Obligations.WaitKeyWithNoKeyIsAStandstill : Prop :=
  ∀ (x : RegIdx) (s : State), s.fault = none → decodeWord s.fetchWord = .ok (.ldVxK x) →
    (∀ k, s.keyDown k = false) → step s = .next s

/-- 44_keypad_timers R194, R195: a timer takes the register's value; nothing else. -/
def Obligations.TimerLoads : Prop :=
  ∀ (x : RegIdx) (s : State),
    (∃ t, exec (.ldDtVx x) s = .next t ∧ t.dt = s.reg x ∧ t.st = s.st ∧ OnlyTimers s t) ∧
    (∃ t, exec (.ldStVx x) s = .next t ∧ t.st = s.reg x ∧ t.dt = s.dt ∧ OnlyTimers s t)

/-! ### Which instructions write what (10_state) -/

/-- 10_state R26: the call stack and `SP` are changed by 2NNN and 00EE only. -/
def Obligations.OnlyCallAndRetChangeTheStack : Prop :=
  ∀ (i : Instr) (s t : State), exec i s = .next t → i ≠ .ret → (∀ nnn, i ≠ .call nnn) → SameStack s t

/-- 10_state R30, R31: framebuffer and `REDRAW` are written by 00E0 and DXYN only; 20_memory R51: memory by FX33 and
FX55 only; 10_state R27, R28: the timers by FX15 and FX18 only. -/
def Obligations.DisplayMemoryAndTimersHaveTheirWriters : Prop :=
  ∀ (i : Instr) (s t : State), exec i s = .next t →
    (i ≠ .cls → (∀ x y n, i ≠ .drw x y n) → SameDisplay s t) ∧
    ((∀ x, i ≠ .ldB x) → (∀ x, i ≠ .ldMemI x) → SameMemory s t) ∧
    ((∀ x, i ≠ .ldDtVx x) → t.dt = s.dt) ∧ ((∀ x, i ≠ .ldStVx x) → t.st = s.st)

/-- 10_state R32: no instruction writes the keypad, nor the parameter `FONT`. -/
def Obligations.NoInstructionWritesTheKeypad : Prop :=
  ∀ (i : Instr) (s t : State), exec i s = .next t → t.keys = s.keys ∧ t.font = s.font

/-- 10_state R29: `VF` is written as a flag by 8XY4, 8XY5, 8XY6, 8XYE and DXYN, and otherwise only as the register an
instruction names as its destination (6FNN, 7FNN, 8FY0 to 8FY3, CFNN, FF07, FF0A, FF65). That `VF` can be named and that
the logic instructions leave it otherwise are the spec's own decisions D29 and D30. -/
def Obligations.OnlyFlagInstructionsAndNamedWritesChangeVF : Prop :=
  ∀ (i : Instr) (s t : State), exec i s = .next t → t.reg 15 ≠ s.reg 15 →
    (∃ x y, i = .addReg x y ∨ i = .sub x y ∨ i = .shr x y ∨ i = .shl x y ∨ ∃ n, i = .drw x y n) ∨
    (∃ nn, i = .ldImm 15 nn ∨ i = .addImm 15 nn ∨ i = .rnd 15 nn) ∨
    (∃ y, i = .ldReg 15 y ∨ i = .or 15 y ∨ i = .and 15 y ∨ i = .xor 15 y) ∨
    i = .ldVxDt 15 ∨ i = .ldVxK 15 ∨ i = .ldVxMemI 15

/-- 10_state R25: after a step without a fault, `PC` is `nnn` (1NNN, 2NNN), the popped entry (00EE), 4 on when the
instruction is a skip whose condition holds, unchanged when it is FX0A with no key pressed, and 2 on for every other
instruction and case, mod 65536. The wrap is the spec's own decision D2, FX0A's test on the level its decision D9. -/
def Obligations.PcAfterAStep : Prop :=
  ∀ (s t : State) (i : Instr), s.fault = none → decodeWord s.fetchWord = .ok i → step s = .next t → t.fault = none →
    (∃ nnn, (i = .jp nnn ∨ i = .call nnn) ∧ t.pc.toNat = nnn.toNat) ∨
    (i = .ret ∧ ∃ k : Fin 16, s.sp.val = k.val + 1 ∧ t.pc = s.stack.get k) ∨
    (skipTaken s i ∧ t.pc.toNat = (s.pc.toNat + 4) % 65536) ∨
    (keyWaiting s i ∧ t.pc = s.pc) ∨
    ((∀ nnn, i ≠ .jp nnn ∧ i ≠ .call nnn) ∧ i ≠ .ret ∧ ¬ skipTaken s i ∧ ¬ keyWaiting s i ∧
      t.pc.toNat = (s.pc.toNat + 2) % 65536)

/-! ### The host interface -/

/-- 60_exceptions R240: each timer goes down by 1 unless 0, ToneStop is returned exactly when `ST` goes from 1 to 0,
and nothing else changes; the tick answers in every state (the spec's own decisions D14, D23). -/
def Obligations.TickCountsBothTimersDown : Prop :=
  ∀ s : State, ∃ t b, transact .advanceTimers s = .next (t, .toneStop b) ∧
    t.dt.toNat = s.dt.toNat - 1 ∧ t.st.toNat = s.st.toNat - 1 ∧ (b = true ↔ s.st = 1) ∧ OnlyTimers s t

/-- 95_test_vectors S10: `n` ticks take `n` off each timer, and neither goes below 0, halted or not (the
spec's own decision D14). -/
def Obligations.TicksNeverGoBelowZero : Prop :=
  ∀ (n : Nat) (s : State), ∃ t, transactAll s (List.replicate n .advanceTimers) = .next t ∧
    t.dt.toNat = s.dt.toNat - n ∧ t.st.toNat = s.st.toNat - n

/-- 70_reset R272: an image of at most 3584 bytes is copied to 0x200 on and changes nothing else; a longer one is
rejected and changes nothing (the spec's own decision D19). -/
def Obligations.LoadCopiesOrRejects : Prop :=
  ∀ (image : List Byte) (s : State),
    (image.length ≤ 3584 → ∃ t, transact (.load image) s = .next (t, .ok) ∧
      (∀ k, (h : k < image.length) → t.byteAt (0x200 + k) = image[k]) ∧
      t.i = s.i ∧ OnlyMemoryAndI 0x200 image.length s t) ∧
    (image.length > 3584 → transact (.load image) s = .next (s, .loadRejected .loadOverflow image.length))

/-- 60_exceptions R247: a key setter writes its key and nothing else; outside the keypad it is refused (the spec's
own decision D25). -/
def Obligations.KeySettersWriteOneKey : Prop :=
  ∀ (k : Nat) (s : State),
    ((h : k < 16) → ∃ t u, transact (.keyPress k) s = .next (t, .ok) ∧ transact (.keyRelease k) s = .next (u, .ok) ∧
      (∀ j, t.keyDown j = if j = ⟨k, h⟩ then true else s.keyDown j) ∧
      (∀ j, u.keyDown j = if j = ⟨k, h⟩ then false else s.keyDown j) ∧
      { t with keys := s.keys } = s ∧ { u with keys := s.keys } = s) ∧
    (k ≥ 16 → transact (.keyPress k) s = .refused (.noSuchKey k) ∧
      transact (.keyRelease k) s = .refused (.noSuchKey k))

/-- 60_exceptions R249: reading `REDRAW` changes nothing; acknowledging clears it and changes nothing else
(the spec's own decision D22). -/
def Obligations.RedrawHandshake : Prop :=
  ∀ s : State, transact .readRedraw s = .next (s, .redraw s.redraw) ∧
    ∃ t, transact .ackRedraw s = .next (t, .ok) ∧ t.redraw = false ∧ { t with redraw := s.redraw } = s

/-- 60_exceptions R248: the export is 2048 pixels row by row, each opaque white or opaque black, and changes nothing
(the spec's own decision D28). -/
def Obligations.FramebufferExportIsRowMajor : Prop :=
  ∀ s : State, ∃ image, transact .readFramebuffer s = .next (s, .pixels image) ∧ image.length = 2048 ∧
    ∀ (x : Fin 64) (y : Fin 32), image[y.val * 64 + x.val]? =
      some (if s.fb.pixel x y = true then Colour.opaqueWhite else Colour.opaqueBlack) ∧
    Colour.opaqueWhite.rgba = [255, 255, 255, 255] ∧ Colour.opaqueBlack.rgba = [0, 0, 0, 255]

/-- 70_reset R278: a fault end is where `step` returned a fault; from a stop end every later step returns `ok` and
changes no state (the spec's own decision D27). -/
def Obligations.AStopEndIsFinal : Prop :=
  (∀ s t : State, ∀ reply, transact .step s = .next (t, reply) →
    (t.faultEnd ↔ ∃ r, reply = .stepFault r)) ∧
  (∀ (s : State) (n : Nat), s.stopEnd →
    transactAll s (List.replicate n .step) = .next s ∧ transact .step s = .next (s, .ok))
end

