-- ==== Sys2Proof/Laws/Decode.lean ====
section
/-! SUPPORT. Taking a field out of a word put together digit by digit gives the digit back. -/

namespace Sys2Proof

variable (a : Nibble) (x y : RegIdx) (n : Nibble) (nn : Byte) (nnn : Addr12)

theorem getLsbD_addrWord (i : Nat) :
    BitVec.getLsbD (w := 16) (a ++ nnn) i = if i < 12 then nnn.getLsbD i else a.getLsbD (i - 12) :=
  BitVec.getLsbD_append

theorem getLsbD_immWord (b : Nibble) (i : Nat) :
    BitVec.getLsbD (w := 16) (a ++ b ++ nn) i =
      if i < 8 then nn.getLsbD i
      else if i - 8 < 4 then b.getLsbD (i - 8) else a.getLsbD (i - 8 - 4) :=
  BitVec.getLsbD_append.trans (by rw [BitVec.getLsbD_append])

theorem getLsbD_regWord (b c : Nibble) (i : Nat) :
    BitVec.getLsbD (w := 16) (a ++ b ++ c ++ n) i =
      if i < 4 then n.getLsbD i
      else if i - 4 < 4 then c.getLsbD (i - 4)
      else if i - 4 - 4 < 4 then b.getLsbD (i - 4 - 4) else a.getLsbD (i - 4 - 4 - 4) :=
  BitVec.getLsbD_append.trans (by rw [BitVec.getLsbD_append, BitVec.getLsbD_append])

@[simp] theorem regBits_toFin : (regBits x).toFin = x := rfl

@[simp] theorem regBits_toNat : (regBits x).toNat = x.val := rfl

@[simp] theorem fieldFamily_addrWord : fieldFamily (a ++ nnn) = a := by
  apply BitVec.eq_of_getLsbD_eq; intro i hi
  simp [fieldFamily, hi, getLsbD_addrWord]

@[simp] theorem fieldNNN_addrWord : fieldNNN (a ++ nnn) = nnn := by
  apply BitVec.eq_of_getLsbD_eq; intro i hi
  simp [fieldNNN, hi, getLsbD_addrWord]

@[simp] theorem fieldFamily_immWord : fieldFamily (a ++ regBits x ++ nn) = a := by
  apply BitVec.eq_of_getLsbD_eq; intro i hi
  simp only [fieldFamily, BitVec.getLsbD_extractLsb', getLsbD_immWord, hi, decide_true, Bool.true_and]
  rw [if_neg (by omega), if_neg (by omega)]; congr 1; omega

@[simp] theorem fieldX_immWord : fieldX (a ++ regBits x ++ nn) = x := by
  have : BitVec.extractLsb' 8 4 (a ++ regBits x ++ nn : Word) = regBits x := by
    apply BitVec.eq_of_getLsbD_eq; intro i hi
    simp [hi, getLsbD_immWord]
  rw [fieldX, this]; rfl

@[simp] theorem fieldNN_immWord : fieldNN (a ++ regBits x ++ nn) = nn := by
  apply BitVec.eq_of_getLsbD_eq; intro i hi
  simp [fieldNN, hi, getLsbD_immWord]

@[simp] theorem fieldFamily_regWord : fieldFamily (a ++ regBits x ++ regBits y ++ n) = a := by
  apply BitVec.eq_of_getLsbD_eq; intro i hi
  simp only [fieldFamily, BitVec.getLsbD_extractLsb', getLsbD_regWord, hi, decide_true, Bool.true_and]
  rw [if_neg (by omega), if_neg (by omega), if_neg (by omega)]; congr 1; omega

@[simp] theorem fieldX_regWord : fieldX (a ++ regBits x ++ regBits y ++ n) = x := by
  have : BitVec.extractLsb' 8 4 (a ++ regBits x ++ regBits y ++ n : Word) = regBits x := by
    apply BitVec.eq_of_getLsbD_eq; intro i hi
    simp only [BitVec.getLsbD_extractLsb', getLsbD_regWord, hi, decide_true, Bool.true_and]
    rw [if_neg (by omega), if_neg (by omega), if_pos (by omega)]; congr 1; omega
  rw [fieldX, this]; rfl

@[simp] theorem fieldY_regWord : fieldY (a ++ regBits x ++ regBits y ++ n) = y := by
  have : BitVec.extractLsb' 4 4 (a ++ regBits x ++ regBits y ++ n : Word) = regBits y := by
    apply BitVec.eq_of_getLsbD_eq; intro i hi
    simp [hi, getLsbD_regWord]
  rw [fieldY, this]; rfl

@[simp] theorem fieldN_regWord : fieldN (a ++ regBits x ++ regBits y ++ n) = n := by
  apply BitVec.eq_of_getLsbD_eq; intro i hi
  simp [fieldN, hi, getLsbD_regWord]

/-- A word laid out in memory and put together again (R52). -/
@[simp] theorem wordOfBytes_wordBytes (w : Word) :
    wordOfBytes (w.extractLsb' 8 8) (w.extractLsb' 0 8) = w := by
  apply BitVec.eq_of_getLsbD_eq; intro i hi
  have : BitVec.getLsbD (w := 16) (w.extractLsb' 8 8 ++ w.extractLsb' 0 8) i =
      if i < 8 then (w.extractLsb' 0 8).getLsbD i else (w.extractLsb' 8 8).getLsbD (i - 8) := BitVec.getLsbD_append
  simp only [wordOfBytes, this, BitVec.getLsbD_extractLsb']
  split
  · simp [*]
  · rw [show 8 + (i - 8) = i by omega]; simp; omega

end Sys2Proof
end

