-- ==== Sys2Proof/Laws/Memory.lean ====
section
/-! SUPPORT. The laws of `MEM` as a canonical list: read after write, and that every operation keeps the form. -/

namespace Sys2Proof.Machine

theorem Memory.listed_insert (a k : Nat) (b : Byte) (m : Memory) :
    (m.insert a b).listed k = if a = k then some b else m.listed k := by
  induction m with
  | nil => simp [Memory.insert, Memory.listed]
  | cons c rest ih =>
    obtain ⟨j, d⟩ := c
    simp only [Memory.insert]
    split
    · simp [Memory.listed]
    · split
      · subst_vars; by_cases h : j = k <;> simp [Memory.listed, h]
      · simp only [Memory.listed, ih]
        by_cases h : j = k
        · have : a ≠ k := by omega
          simp [h, this]
        · simp [h]

theorem Memory.listed_erase (a k : Nat) (m : Memory) :
    (m.erase a).listed k = if a = k then none else m.listed k := by
  induction m with
  | nil => simp [Memory.erase, Memory.listed]
  | cons c rest ih =>
    obtain ⟨j, d⟩ := c
    simp only [Memory.erase]
    split
    · rw [ih]; subst_vars; by_cases h : j = k <;> simp [Memory.listed, h]
    · simp only [Memory.listed, ih]
      by_cases h : j = k
      · have : a ≠ k := by omega
        simp [h, this]
      · simp [h]

/-- Reading after a write: the written byte at its address, the old byte everywhere else. -/
theorem Memory.read_write (font : Vector Byte 80) (m : Memory) (a k : Nat) (b : Byte) :
    Memory.read font (Memory.write font m a b) k = if a = k then b else Memory.read font m k := by
  unfold Memory.read Memory.write
  split
  · rw [Memory.listed_erase]; split <;> simp_all
  · rw [Memory.listed_insert]; split <;> simp

theorem Memory.mem_insert {c : Host.Cell} {a : Nat} {b : Byte} {m : Memory} (h : c ∈ m.insert a b) :
    c = (a, b) ∨ c ∈ m := by
  induction m with
  | nil => simpa [Memory.insert] using h
  | cons d rest ih =>
    obtain ⟨j, e⟩ := d
    simp only [Memory.insert] at h
    split at h
    · simpa using h
    · split at h
      · simp only [List.mem_cons] at h ⊢; tauto
      · rcases List.mem_cons.1 h with h | h
        · exact .inr (by simp [h])
        · exact (ih h).imp_right (List.mem_cons_of_mem _)

theorem Memory.mem_erase {c : Host.Cell} {a : Nat} {m : Memory} (h : c ∈ m.erase a) : c ∈ m := by
  induction m with
  | nil => simp [Memory.erase] at h
  | cons d rest ih =>
    obtain ⟨j, e⟩ := d
    simp only [Memory.erase] at h
    split at h
    · exact List.mem_cons_of_mem _ (ih h)
    · rcases List.mem_cons.1 h with h | h
      · exact h ▸ List.mem_cons_self
      · exact List.mem_cons_of_mem _ (ih h)

theorem Memory.insert_pairwise {a : Nat} {b : Byte} {m : Memory} (h : m.Pairwise (fun c d => c.1 < d.1)) :
    (m.insert a b).Pairwise (fun c d => c.1 < d.1) := by
  induction m with
  | nil => simp [Memory.insert]
  | cons d rest ih =>
    obtain ⟨j, e⟩ := d
    rw [List.pairwise_cons] at h
    simp only [Memory.insert]
    split
    · next hlt =>
      refine List.pairwise_cons.2 ⟨fun c hc => ?_, List.pairwise_cons.2 h⟩
      rcases List.mem_cons.1 hc with rfl | hc
      · exact hlt
      · exact Nat.lt_trans hlt (h.1 c hc)
    · split
      · next heq => subst heq; exact List.pairwise_cons.2 h
      · refine List.pairwise_cons.2 ⟨fun c hc => ?_, ih h.2⟩
        rcases Memory.mem_insert hc with rfl | hc
        · show j < a; omega
        · exact h.1 c hc

theorem Memory.erase_pairwise {a : Nat} {m : Memory} (h : m.Pairwise (fun c d => c.1 < d.1)) :
    (m.erase a).Pairwise (fun c d => c.1 < d.1) := by
  induction m with
  | nil => simp [Memory.erase]
  | cons d rest ih =>
    obtain ⟨j, e⟩ := d
    rw [List.pairwise_cons] at h
    simp only [Memory.erase]
    split
    · exact ih h.2
    · exact List.pairwise_cons.2 ⟨fun c hc => h.1 c (Memory.mem_erase hc), ih h.2⟩

/-- A write to an index inside `MEM` keeps the canonical form. -/
theorem Memory.write_wf {font : Vector Byte 80} {m : Memory} {a : Nat} {b : Byte} (ha : a < 4096)
    (h : Memory.wf font m) : Memory.wf font (Memory.write font m a b) := by
  unfold Memory.write
  split
  · exact ⟨Memory.erase_pairwise h.1, fun c hc => h.2 c (Memory.mem_erase hc)⟩
  · next hb =>
    refine ⟨Memory.insert_pairwise h.1, fun c hc => ?_⟩
    rcases Memory.mem_insert hc with rfl | hc
    · exact ⟨ha, hb⟩
    · exact h.2 c hc

theorem Memory.nil_wf (font : Vector Byte 80) : Memory.wf font [] :=
  ⟨List.Pairwise.nil, fun _ h => by cases h⟩

/-- A cell of a rising list is what is listed at its address. -/
theorem Memory.listed_of_mem {c : Host.Cell} {m : Memory} (h : m.Pairwise (fun c d => c.1 < d.1)) (hc : c ∈ m) :
    m.listed c.1 = some c.2 := by
  induction m with
  | nil => simp at hc
  | cons d rest ih =>
    obtain ⟨j, e⟩ := d
    rw [List.pairwise_cons] at h
    rcases List.mem_cons.1 hc with rfl | hc
    · simp [Memory.listed]
    · have hlt : j < c.1 := h.1 c hc
      have : j ≠ c.1 := by omega
      simp [Memory.listed, this, ih h.2 hc]

/-- What is listed at an address is a cell of the list. -/
theorem Memory.mem_of_listed {m : Memory} {a : Nat} {b : Byte} (h : m.listed a = some b) : (a, b) ∈ m := by
  induction m with
  | nil => simp [Memory.listed] at h
  | cons d rest ih =>
    obtain ⟨j, e⟩ := d
    simp only [Memory.listed] at h
    split at h
    · next hj => subst hj; cases h; exact List.mem_cons_self
    · exact List.mem_cons_of_mem _ (ih h)

end Sys2Proof.Machine
end

