-- ==== Sys2Proof/Laws/State.lean ====
section
/-! SUPPORT. What each state update leaves alone: one lemma per field per update, true by definition. -/

namespace Sys2Proof.Machine

variable (s : State)

@[simp] theorem State.setReg_i (x : RegIdx) (b : Byte) : (s.setReg x b).i = s.i := rfl
@[simp] theorem State.setReg_pc (x : RegIdx) (b : Byte) : (s.setReg x b).pc = s.pc := rfl
@[simp] theorem State.setReg_stack (x : RegIdx) (b : Byte) : (s.setReg x b).stack = s.stack := rfl
@[simp] theorem State.setReg_sp (x : RegIdx) (b : Byte) : (s.setReg x b).sp = s.sp := rfl
@[simp] theorem State.setReg_dt (x : RegIdx) (b : Byte) : (s.setReg x b).dt = s.dt := rfl
@[simp] theorem State.setReg_st (x : RegIdx) (b : Byte) : (s.setReg x b).st = s.st := rfl
@[simp] theorem State.setReg_mem (x : RegIdx) (b : Byte) : (s.setReg x b).mem = s.mem := rfl
@[simp] theorem State.setReg_fb (x : RegIdx) (b : Byte) : (s.setReg x b).fb = s.fb := rfl
@[simp] theorem State.setReg_redraw (x : RegIdx) (b : Byte) : (s.setReg x b).redraw = s.redraw := rfl
@[simp] theorem State.setReg_keys (x : RegIdx) (b : Byte) : (s.setReg x b).keys = s.keys := rfl
@[simp] theorem State.setReg_fault (x : RegIdx) (b : Byte) : (s.setReg x b).fault = s.fault := rfl
@[simp] theorem State.setReg_font (x : RegIdx) (b : Byte) : (s.setReg x b).font = s.font := rfl
@[simp] theorem State.setReg_draws (x : RegIdx) (b : Byte) : (s.setReg x b).draws = s.draws := rfl
@[simp] theorem State.setReg_byteAt (x : RegIdx) (b : Byte) (a' : Nat) : (s.setReg x b).byteAt a' = s.byteAt a' := rfl
@[simp] theorem State.setReg_keyDown (x : RegIdx) (b : Byte) (k' : Fin 16) : (s.setReg x b).keyDown k' = s.keyDown k' := rfl

@[simp] theorem State.setFlag_i (b : Byte) : (s.setFlag b).i = s.i := rfl
@[simp] theorem State.setFlag_pc (b : Byte) : (s.setFlag b).pc = s.pc := rfl
@[simp] theorem State.setFlag_stack (b : Byte) : (s.setFlag b).stack = s.stack := rfl
@[simp] theorem State.setFlag_sp (b : Byte) : (s.setFlag b).sp = s.sp := rfl
@[simp] theorem State.setFlag_dt (b : Byte) : (s.setFlag b).dt = s.dt := rfl
@[simp] theorem State.setFlag_st (b : Byte) : (s.setFlag b).st = s.st := rfl
@[simp] theorem State.setFlag_mem (b : Byte) : (s.setFlag b).mem = s.mem := rfl
@[simp] theorem State.setFlag_fb (b : Byte) : (s.setFlag b).fb = s.fb := rfl
@[simp] theorem State.setFlag_redraw (b : Byte) : (s.setFlag b).redraw = s.redraw := rfl
@[simp] theorem State.setFlag_keys (b : Byte) : (s.setFlag b).keys = s.keys := rfl
@[simp] theorem State.setFlag_fault (b : Byte) : (s.setFlag b).fault = s.fault := rfl
@[simp] theorem State.setFlag_font (b : Byte) : (s.setFlag b).font = s.font := rfl
@[simp] theorem State.setFlag_draws (b : Byte) : (s.setFlag b).draws = s.draws := rfl
@[simp] theorem State.setFlag_byteAt (b : Byte) (a' : Nat) : (s.setFlag b).byteAt a' = s.byteAt a' := rfl
@[simp] theorem State.setFlag_keyDown (b : Byte) (k' : Fin 16) : (s.setFlag b).keyDown k' = s.keyDown k' := rfl

@[simp] theorem State.setI_v (w : Word) : (s.setI w).v = s.v := rfl
@[simp] theorem State.setI_pc (w : Word) : (s.setI w).pc = s.pc := rfl
@[simp] theorem State.setI_stack (w : Word) : (s.setI w).stack = s.stack := rfl
@[simp] theorem State.setI_sp (w : Word) : (s.setI w).sp = s.sp := rfl
@[simp] theorem State.setI_dt (w : Word) : (s.setI w).dt = s.dt := rfl
@[simp] theorem State.setI_st (w : Word) : (s.setI w).st = s.st := rfl
@[simp] theorem State.setI_mem (w : Word) : (s.setI w).mem = s.mem := rfl
@[simp] theorem State.setI_fb (w : Word) : (s.setI w).fb = s.fb := rfl
@[simp] theorem State.setI_redraw (w : Word) : (s.setI w).redraw = s.redraw := rfl
@[simp] theorem State.setI_keys (w : Word) : (s.setI w).keys = s.keys := rfl
@[simp] theorem State.setI_fault (w : Word) : (s.setI w).fault = s.fault := rfl
@[simp] theorem State.setI_font (w : Word) : (s.setI w).font = s.font := rfl
@[simp] theorem State.setI_draws (w : Word) : (s.setI w).draws = s.draws := rfl
@[simp] theorem State.setI_reg (w : Word) (k : RegIdx) : (s.setI w).reg k = s.reg k := rfl
@[simp] theorem State.setI_byteAt (w : Word) (a' : Nat) : (s.setI w).byteAt a' = s.byteAt a' := rfl
@[simp] theorem State.setI_keyDown (w : Word) (k' : Fin 16) : (s.setI w).keyDown k' = s.keyDown k' := rfl

@[simp] theorem State.setPc_v (w : Word) : (s.setPc w).v = s.v := rfl
@[simp] theorem State.setPc_i (w : Word) : (s.setPc w).i = s.i := rfl
@[simp] theorem State.setPc_stack (w : Word) : (s.setPc w).stack = s.stack := rfl
@[simp] theorem State.setPc_sp (w : Word) : (s.setPc w).sp = s.sp := rfl
@[simp] theorem State.setPc_dt (w : Word) : (s.setPc w).dt = s.dt := rfl
@[simp] theorem State.setPc_st (w : Word) : (s.setPc w).st = s.st := rfl
@[simp] theorem State.setPc_mem (w : Word) : (s.setPc w).mem = s.mem := rfl
@[simp] theorem State.setPc_fb (w : Word) : (s.setPc w).fb = s.fb := rfl
@[simp] theorem State.setPc_redraw (w : Word) : (s.setPc w).redraw = s.redraw := rfl
@[simp] theorem State.setPc_keys (w : Word) : (s.setPc w).keys = s.keys := rfl
@[simp] theorem State.setPc_fault (w : Word) : (s.setPc w).fault = s.fault := rfl
@[simp] theorem State.setPc_font (w : Word) : (s.setPc w).font = s.font := rfl
@[simp] theorem State.setPc_draws (w : Word) : (s.setPc w).draws = s.draws := rfl
@[simp] theorem State.setPc_reg (w : Word) (k : RegIdx) : (s.setPc w).reg k = s.reg k := rfl
@[simp] theorem State.setPc_byteAt (w : Word) (a' : Nat) : (s.setPc w).byteAt a' = s.byteAt a' := rfl
@[simp] theorem State.setPc_keyDown (w : Word) (k' : Fin 16) : (s.setPc w).keyDown k' = s.keyDown k' := rfl

@[simp] theorem State.advancePc_v : (s.advancePc).v = s.v := rfl
@[simp] theorem State.advancePc_i : (s.advancePc).i = s.i := rfl
@[simp] theorem State.advancePc_stack : (s.advancePc).stack = s.stack := rfl
@[simp] theorem State.advancePc_sp : (s.advancePc).sp = s.sp := rfl
@[simp] theorem State.advancePc_dt : (s.advancePc).dt = s.dt := rfl
@[simp] theorem State.advancePc_st : (s.advancePc).st = s.st := rfl
@[simp] theorem State.advancePc_mem : (s.advancePc).mem = s.mem := rfl
@[simp] theorem State.advancePc_fb : (s.advancePc).fb = s.fb := rfl
@[simp] theorem State.advancePc_redraw : (s.advancePc).redraw = s.redraw := rfl
@[simp] theorem State.advancePc_keys : (s.advancePc).keys = s.keys := rfl
@[simp] theorem State.advancePc_fault : (s.advancePc).fault = s.fault := rfl
@[simp] theorem State.advancePc_font : (s.advancePc).font = s.font := rfl
@[simp] theorem State.advancePc_draws : (s.advancePc).draws = s.draws := rfl
@[simp] theorem State.advancePc_reg (k : RegIdx) : (s.advancePc).reg k = s.reg k := rfl
@[simp] theorem State.advancePc_byteAt (a' : Nat) : (s.advancePc).byteAt a' = s.byteAt a' := rfl
@[simp] theorem State.advancePc_keyDown (k' : Fin 16) : (s.advancePc).keyDown k' = s.keyDown k' := rfl

@[simp] theorem State.rewindPc_v : (s.rewindPc).v = s.v := rfl
@[simp] theorem State.rewindPc_i : (s.rewindPc).i = s.i := rfl
@[simp] theorem State.rewindPc_stack : (s.rewindPc).stack = s.stack := rfl
@[simp] theorem State.rewindPc_sp : (s.rewindPc).sp = s.sp := rfl
@[simp] theorem State.rewindPc_dt : (s.rewindPc).dt = s.dt := rfl
@[simp] theorem State.rewindPc_st : (s.rewindPc).st = s.st := rfl
@[simp] theorem State.rewindPc_mem : (s.rewindPc).mem = s.mem := rfl
@[simp] theorem State.rewindPc_fb : (s.rewindPc).fb = s.fb := rfl
@[simp] theorem State.rewindPc_redraw : (s.rewindPc).redraw = s.redraw := rfl
@[simp] theorem State.rewindPc_keys : (s.rewindPc).keys = s.keys := rfl
@[simp] theorem State.rewindPc_fault : (s.rewindPc).fault = s.fault := rfl
@[simp] theorem State.rewindPc_font : (s.rewindPc).font = s.font := rfl
@[simp] theorem State.rewindPc_draws : (s.rewindPc).draws = s.draws := rfl
@[simp] theorem State.rewindPc_reg (k : RegIdx) : (s.rewindPc).reg k = s.reg k := rfl
@[simp] theorem State.rewindPc_byteAt (a' : Nat) : (s.rewindPc).byteAt a' = s.byteAt a' := rfl
@[simp] theorem State.rewindPc_keyDown (k' : Fin 16) : (s.rewindPc).keyDown k' = s.keyDown k' := rfl

@[simp] theorem State.skipIf_v (c : Bool) : (s.skipIf c).v = s.v := by cases c <;> rfl
@[simp] theorem State.skipIf_i (c : Bool) : (s.skipIf c).i = s.i := by cases c <;> rfl
@[simp] theorem State.skipIf_stack (c : Bool) : (s.skipIf c).stack = s.stack := by cases c <;> rfl
@[simp] theorem State.skipIf_sp (c : Bool) : (s.skipIf c).sp = s.sp := by cases c <;> rfl
@[simp] theorem State.skipIf_dt (c : Bool) : (s.skipIf c).dt = s.dt := by cases c <;> rfl
@[simp] theorem State.skipIf_st (c : Bool) : (s.skipIf c).st = s.st := by cases c <;> rfl
@[simp] theorem State.skipIf_mem (c : Bool) : (s.skipIf c).mem = s.mem := by cases c <;> rfl
@[simp] theorem State.skipIf_fb (c : Bool) : (s.skipIf c).fb = s.fb := by cases c <;> rfl
@[simp] theorem State.skipIf_redraw (c : Bool) : (s.skipIf c).redraw = s.redraw := by cases c <;> rfl
@[simp] theorem State.skipIf_keys (c : Bool) : (s.skipIf c).keys = s.keys := by cases c <;> rfl
@[simp] theorem State.skipIf_fault (c : Bool) : (s.skipIf c).fault = s.fault := by cases c <;> rfl
@[simp] theorem State.skipIf_font (c : Bool) : (s.skipIf c).font = s.font := by cases c <;> rfl
@[simp] theorem State.skipIf_draws (c : Bool) : (s.skipIf c).draws = s.draws := by cases c <;> rfl
@[simp] theorem State.skipIf_reg (c : Bool) (k : RegIdx) : (s.skipIf c).reg k = s.reg k := by cases c <;> rfl
@[simp] theorem State.skipIf_byteAt (c : Bool) (a' : Nat) : (s.skipIf c).byteAt a' = s.byteAt a' := by cases c <;> rfl
@[simp] theorem State.skipIf_keyDown (c : Bool) (k' : Fin 16) : (s.skipIf c).keyDown k' = s.keyDown k' := by cases c <;> rfl

@[simp] theorem State.storeByte_v (a : Nat) (b : Byte) : (s.storeByte a b).v = s.v := rfl
@[simp] theorem State.storeByte_i (a : Nat) (b : Byte) : (s.storeByte a b).i = s.i := rfl
@[simp] theorem State.storeByte_pc (a : Nat) (b : Byte) : (s.storeByte a b).pc = s.pc := rfl
@[simp] theorem State.storeByte_stack (a : Nat) (b : Byte) : (s.storeByte a b).stack = s.stack := rfl
@[simp] theorem State.storeByte_sp (a : Nat) (b : Byte) : (s.storeByte a b).sp = s.sp := rfl
@[simp] theorem State.storeByte_dt (a : Nat) (b : Byte) : (s.storeByte a b).dt = s.dt := rfl
@[simp] theorem State.storeByte_st (a : Nat) (b : Byte) : (s.storeByte a b).st = s.st := rfl
@[simp] theorem State.storeByte_fb (a : Nat) (b : Byte) : (s.storeByte a b).fb = s.fb := rfl
@[simp] theorem State.storeByte_redraw (a : Nat) (b : Byte) : (s.storeByte a b).redraw = s.redraw := rfl
@[simp] theorem State.storeByte_keys (a : Nat) (b : Byte) : (s.storeByte a b).keys = s.keys := rfl
@[simp] theorem State.storeByte_fault (a : Nat) (b : Byte) : (s.storeByte a b).fault = s.fault := rfl
@[simp] theorem State.storeByte_font (a : Nat) (b : Byte) : (s.storeByte a b).font = s.font := rfl
@[simp] theorem State.storeByte_draws (a : Nat) (b : Byte) : (s.storeByte a b).draws = s.draws := rfl
@[simp] theorem State.storeByte_reg (a : Nat) (b : Byte) (k : RegIdx) : (s.storeByte a b).reg k = s.reg k := rfl
@[simp] theorem State.storeByte_keyDown (a : Nat) (b : Byte) (k' : Fin 16) : (s.storeByte a b).keyDown k' = s.keyDown k' := rfl

@[simp] theorem State.setKey_v (j : Fin 16) (d : Bool) : (s.setKey j d).v = s.v := rfl
@[simp] theorem State.setKey_i (j : Fin 16) (d : Bool) : (s.setKey j d).i = s.i := rfl
@[simp] theorem State.setKey_pc (j : Fin 16) (d : Bool) : (s.setKey j d).pc = s.pc := rfl
@[simp] theorem State.setKey_stack (j : Fin 16) (d : Bool) : (s.setKey j d).stack = s.stack := rfl
@[simp] theorem State.setKey_sp (j : Fin 16) (d : Bool) : (s.setKey j d).sp = s.sp := rfl
@[simp] theorem State.setKey_dt (j : Fin 16) (d : Bool) : (s.setKey j d).dt = s.dt := rfl
@[simp] theorem State.setKey_st (j : Fin 16) (d : Bool) : (s.setKey j d).st = s.st := rfl
@[simp] theorem State.setKey_mem (j : Fin 16) (d : Bool) : (s.setKey j d).mem = s.mem := rfl
@[simp] theorem State.setKey_fb (j : Fin 16) (d : Bool) : (s.setKey j d).fb = s.fb := rfl
@[simp] theorem State.setKey_redraw (j : Fin 16) (d : Bool) : (s.setKey j d).redraw = s.redraw := rfl
@[simp] theorem State.setKey_fault (j : Fin 16) (d : Bool) : (s.setKey j d).fault = s.fault := rfl
@[simp] theorem State.setKey_font (j : Fin 16) (d : Bool) : (s.setKey j d).font = s.font := rfl
@[simp] theorem State.setKey_draws (j : Fin 16) (d : Bool) : (s.setKey j d).draws = s.draws := rfl
@[simp] theorem State.setKey_reg (j : Fin 16) (d : Bool) (k : RegIdx) : (s.setKey j d).reg k = s.reg k := rfl
@[simp] theorem State.setKey_byteAt (j : Fin 16) (d : Bool) (a' : Nat) : (s.setKey j d).byteAt a' = s.byteAt a' := rfl

@[simp] theorem State.takeFault_v (kind : FaultKind) (op : Word) : (s.takeFault kind op).v = s.v := rfl
@[simp] theorem State.takeFault_i (kind : FaultKind) (op : Word) : (s.takeFault kind op).i = s.i := rfl
@[simp] theorem State.takeFault_stack (kind : FaultKind) (op : Word) : (s.takeFault kind op).stack = s.stack := rfl
@[simp] theorem State.takeFault_sp (kind : FaultKind) (op : Word) : (s.takeFault kind op).sp = s.sp := rfl
@[simp] theorem State.takeFault_dt (kind : FaultKind) (op : Word) : (s.takeFault kind op).dt = s.dt := rfl
@[simp] theorem State.takeFault_st (kind : FaultKind) (op : Word) : (s.takeFault kind op).st = s.st := rfl
@[simp] theorem State.takeFault_mem (kind : FaultKind) (op : Word) : (s.takeFault kind op).mem = s.mem := rfl
@[simp] theorem State.takeFault_fb (kind : FaultKind) (op : Word) : (s.takeFault kind op).fb = s.fb := rfl
@[simp] theorem State.takeFault_redraw (kind : FaultKind) (op : Word) : (s.takeFault kind op).redraw = s.redraw := rfl
@[simp] theorem State.takeFault_keys (kind : FaultKind) (op : Word) : (s.takeFault kind op).keys = s.keys := rfl
@[simp] theorem State.takeFault_font (kind : FaultKind) (op : Word) : (s.takeFault kind op).font = s.font := rfl
@[simp] theorem State.takeFault_draws (kind : FaultKind) (op : Word) : (s.takeFault kind op).draws = s.draws := rfl
@[simp] theorem State.takeFault_reg (kind : FaultKind) (op : Word) (k : RegIdx) : (s.takeFault kind op).reg k = s.reg k := rfl
@[simp] theorem State.takeFault_byteAt (kind : FaultKind) (op : Word) (a' : Nat) : (s.takeFault kind op).byteAt a' = s.byteAt a' := rfl
@[simp] theorem State.takeFault_keyDown (kind : FaultKind) (op : Word) (k' : Fin 16) : (s.takeFault kind op).keyDown k' = s.keyDown k' := rfl

@[simp] theorem State.flagThenResult_i (g : Byte) (x : RegIdx) (f : State → Byte) : (s.flagThenResult g x f).i = s.i := rfl
@[simp] theorem State.flagThenResult_pc (g : Byte) (x : RegIdx) (f : State → Byte) : (s.flagThenResult g x f).pc = s.pc := rfl
@[simp] theorem State.flagThenResult_stack (g : Byte) (x : RegIdx) (f : State → Byte) : (s.flagThenResult g x f).stack = s.stack := rfl
@[simp] theorem State.flagThenResult_sp (g : Byte) (x : RegIdx) (f : State → Byte) : (s.flagThenResult g x f).sp = s.sp := rfl
@[simp] theorem State.flagThenResult_dt (g : Byte) (x : RegIdx) (f : State → Byte) : (s.flagThenResult g x f).dt = s.dt := rfl
@[simp] theorem State.flagThenResult_st (g : Byte) (x : RegIdx) (f : State → Byte) : (s.flagThenResult g x f).st = s.st := rfl
@[simp] theorem State.flagThenResult_mem (g : Byte) (x : RegIdx) (f : State → Byte) : (s.flagThenResult g x f).mem = s.mem := rfl
@[simp] theorem State.flagThenResult_fb (g : Byte) (x : RegIdx) (f : State → Byte) : (s.flagThenResult g x f).fb = s.fb := rfl
@[simp] theorem State.flagThenResult_redraw (g : Byte) (x : RegIdx) (f : State → Byte) : (s.flagThenResult g x f).redraw = s.redraw := rfl
@[simp] theorem State.flagThenResult_keys (g : Byte) (x : RegIdx) (f : State → Byte) : (s.flagThenResult g x f).keys = s.keys := rfl
@[simp] theorem State.flagThenResult_fault (g : Byte) (x : RegIdx) (f : State → Byte) : (s.flagThenResult g x f).fault = s.fault := rfl
@[simp] theorem State.flagThenResult_font (g : Byte) (x : RegIdx) (f : State → Byte) : (s.flagThenResult g x f).font = s.font := rfl
@[simp] theorem State.flagThenResult_draws (g : Byte) (x : RegIdx) (f : State → Byte) : (s.flagThenResult g x f).draws = s.draws := rfl
@[simp] theorem State.flagThenResult_byteAt (g : Byte) (x : RegIdx) (f : State → Byte) (a' : Nat) : (s.flagThenResult g x f).byteAt a' = s.byteAt a' := rfl
@[simp] theorem State.flagThenResult_keyDown (g : Byte) (x : RegIdx) (f : State → Byte) (k' : Fin 16) : (s.flagThenResult g x f).keyDown k' = s.keyDown k' := rfl

@[simp] theorem State.drawSprite_i (x y : RegIdx) (n : Nat) : (s.drawSprite x y n).i = s.i := by simp only [State.drawSprite, State.setFlag_i]
@[simp] theorem State.drawSprite_pc (x y : RegIdx) (n : Nat) : (s.drawSprite x y n).pc = s.pc := by simp only [State.drawSprite, State.setFlag_pc]
@[simp] theorem State.drawSprite_stack (x y : RegIdx) (n : Nat) : (s.drawSprite x y n).stack = s.stack := by simp only [State.drawSprite, State.setFlag_stack]
@[simp] theorem State.drawSprite_sp (x y : RegIdx) (n : Nat) : (s.drawSprite x y n).sp = s.sp := by simp only [State.drawSprite, State.setFlag_sp]
@[simp] theorem State.drawSprite_dt (x y : RegIdx) (n : Nat) : (s.drawSprite x y n).dt = s.dt := by simp only [State.drawSprite, State.setFlag_dt]
@[simp] theorem State.drawSprite_st (x y : RegIdx) (n : Nat) : (s.drawSprite x y n).st = s.st := by simp only [State.drawSprite, State.setFlag_st]
@[simp] theorem State.drawSprite_mem (x y : RegIdx) (n : Nat) : (s.drawSprite x y n).mem = s.mem := by simp only [State.drawSprite, State.setFlag_mem]
@[simp] theorem State.drawSprite_keys (x y : RegIdx) (n : Nat) : (s.drawSprite x y n).keys = s.keys := by simp only [State.drawSprite, State.setFlag_keys]
@[simp] theorem State.drawSprite_fault (x y : RegIdx) (n : Nat) : (s.drawSprite x y n).fault = s.fault := by simp only [State.drawSprite, State.setFlag_fault]
@[simp] theorem State.drawSprite_font (x y : RegIdx) (n : Nat) : (s.drawSprite x y n).font = s.font := by simp only [State.drawSprite, State.setFlag_font]
@[simp] theorem State.drawSprite_draws (x y : RegIdx) (n : Nat) : (s.drawSprite x y n).draws = s.draws := by simp only [State.drawSprite, State.setFlag_draws]
@[simp] theorem State.drawSprite_byteAt (x y : RegIdx) (n : Nat) (a' : Nat) : (s.drawSprite x y n).byteAt a' = s.byteAt a' := by
  simp only [State.byteAt, State.drawSprite_mem, State.drawSprite_font]
@[simp] theorem State.drawSprite_keyDown (x y : RegIdx) (n : Nat) (k' : Fin 16) : (s.drawSprite x y n).keyDown k' = s.keyDown k' := by
  simp only [State.keyDown, State.drawSprite_keys]

/-! ### The fields an update writes -/

@[simp] theorem State.setI_i (w : Word) : (s.setI w).i = w := rfl
@[simp] theorem State.setPc_pc (w : Word) : (s.setPc w).pc = w := rfl
@[simp] theorem State.advancePc_pc : s.advancePc.pc = s.pc + 2 := rfl
@[simp] theorem State.rewindPc_pc : s.rewindPc.pc = s.pc - 2 := rfl
@[simp] theorem State.skipIf_pc (c : Bool) : (s.skipIf c).pc = if c then s.pc + 2 else s.pc := by cases c <;> rfl
@[simp] theorem State.takeFault_pc (kind : FaultKind) (op : Word) : (s.takeFault kind op).pc = s.pc - 2 := rfl
@[simp] theorem State.takeFault_fault (kind : FaultKind) (op : Word) :
    (s.takeFault kind op).fault = some ⟨kind, op, s.pc - 2⟩ := rfl
@[simp] theorem State.drawSprite_redraw (x y : RegIdx) (n : Nat) : (s.drawSprite x y n).redraw = true := by
  simp only [State.drawSprite]
@[simp] theorem State.rand8_fst : s.rand8.1 = Config.rand8 s.draws := rfl
@[simp] theorem State.rand8_snd_draws : s.rand8.2.draws = s.draws + 1 := rfl
@[simp] theorem State.rand8_snd_v : s.rand8.2.v = s.v := rfl
@[simp] theorem State.rand8_snd_i : s.rand8.2.i = s.i := rfl
@[simp] theorem State.rand8_snd_pc : s.rand8.2.pc = s.pc := rfl
@[simp] theorem State.rand8_snd_stack : s.rand8.2.stack = s.stack := rfl
@[simp] theorem State.rand8_snd_sp : s.rand8.2.sp = s.sp := rfl
@[simp] theorem State.rand8_snd_dt : s.rand8.2.dt = s.dt := rfl
@[simp] theorem State.rand8_snd_st : s.rand8.2.st = s.st := rfl
@[simp] theorem State.rand8_snd_mem : s.rand8.2.mem = s.mem := rfl
@[simp] theorem State.rand8_snd_fb : s.rand8.2.fb = s.fb := rfl
@[simp] theorem State.rand8_snd_redraw : s.rand8.2.redraw = s.redraw := rfl
@[simp] theorem State.rand8_snd_keys : s.rand8.2.keys = s.keys := rfl
@[simp] theorem State.rand8_snd_fault : s.rand8.2.fault = s.fault := rfl
@[simp] theorem State.rand8_snd_font : s.rand8.2.font = s.font := rfl
@[simp] theorem State.rand8_snd_reg (k : RegIdx) : (s.rand8.2).reg k = s.reg k := rfl
@[simp] theorem State.rand8_snd_byteAt (a : Nat) : s.rand8.2.byteAt a = s.byteAt a := rfl

/-! ### A multi-byte store changes memory only -/

@[simp] theorem State.storeBytes_v (a : Nat) (bs : List Byte) : (s.storeBytes a bs).v = s.v := by
  induction bs generalizing s a with
  | nil => rfl
  | cons b bs ih => exact (ih (s.storeByte a b) (a + 1)).trans rfl

@[simp] theorem State.storeBytes_i (a : Nat) (bs : List Byte) : (s.storeBytes a bs).i = s.i := by
  induction bs generalizing s a with
  | nil => rfl
  | cons b bs ih => exact (ih (s.storeByte a b) (a + 1)).trans rfl

@[simp] theorem State.storeBytes_pc (a : Nat) (bs : List Byte) : (s.storeBytes a bs).pc = s.pc := by
  induction bs generalizing s a with
  | nil => rfl
  | cons b bs ih => exact (ih (s.storeByte a b) (a + 1)).trans rfl

@[simp] theorem State.storeBytes_stack (a : Nat) (bs : List Byte) : (s.storeBytes a bs).stack = s.stack := by
  induction bs generalizing s a with
  | nil => rfl
  | cons b bs ih => exact (ih (s.storeByte a b) (a + 1)).trans rfl

@[simp] theorem State.storeBytes_sp (a : Nat) (bs : List Byte) : (s.storeBytes a bs).sp = s.sp := by
  induction bs generalizing s a with
  | nil => rfl
  | cons b bs ih => exact (ih (s.storeByte a b) (a + 1)).trans rfl

@[simp] theorem State.storeBytes_dt (a : Nat) (bs : List Byte) : (s.storeBytes a bs).dt = s.dt := by
  induction bs generalizing s a with
  | nil => rfl
  | cons b bs ih => exact (ih (s.storeByte a b) (a + 1)).trans rfl

@[simp] theorem State.storeBytes_st (a : Nat) (bs : List Byte) : (s.storeBytes a bs).st = s.st := by
  induction bs generalizing s a with
  | nil => rfl
  | cons b bs ih => exact (ih (s.storeByte a b) (a + 1)).trans rfl

@[simp] theorem State.storeBytes_fb (a : Nat) (bs : List Byte) : (s.storeBytes a bs).fb = s.fb := by
  induction bs generalizing s a with
  | nil => rfl
  | cons b bs ih => exact (ih (s.storeByte a b) (a + 1)).trans rfl

@[simp] theorem State.storeBytes_redraw (a : Nat) (bs : List Byte) : (s.storeBytes a bs).redraw = s.redraw := by
  induction bs generalizing s a with
  | nil => rfl
  | cons b bs ih => exact (ih (s.storeByte a b) (a + 1)).trans rfl

@[simp] theorem State.storeBytes_keys (a : Nat) (bs : List Byte) : (s.storeBytes a bs).keys = s.keys := by
  induction bs generalizing s a with
  | nil => rfl
  | cons b bs ih => exact (ih (s.storeByte a b) (a + 1)).trans rfl

@[simp] theorem State.storeBytes_fault (a : Nat) (bs : List Byte) : (s.storeBytes a bs).fault = s.fault := by
  induction bs generalizing s a with
  | nil => rfl
  | cons b bs ih => exact (ih (s.storeByte a b) (a + 1)).trans rfl

@[simp] theorem State.storeBytes_font (a : Nat) (bs : List Byte) : (s.storeBytes a bs).font = s.font := by
  induction bs generalizing s a with
  | nil => rfl
  | cons b bs ih => exact (ih (s.storeByte a b) (a + 1)).trans rfl

@[simp] theorem State.storeBytes_draws (a : Nat) (bs : List Byte) : (s.storeBytes a bs).draws = s.draws := by
  induction bs generalizing s a with
  | nil => rfl
  | cons b bs ih => exact (ih (s.storeByte a b) (a + 1)).trans rfl

@[simp] theorem State.storeBytes_reg (a : Nat) (bs : List Byte) (k : RegIdx) : (s.storeBytes a bs).reg k = s.reg k := by
  simp [State.reg]

@[simp] theorem State.storeBytes_keyDown (a : Nat) (bs : List Byte) (k : Fin 16) :
    (s.storeBytes a bs).keyDown k = s.keyDown k := by
  simp [State.keyDown]

/-! ### Loading registers changes `V` only -/

@[simp] theorem State.loadRegs_i (a n : Nat) : (s.loadRegs a n).i = s.i := by
  induction n with
  | zero => rfl
  | succ n ih => simp only [State.loadRegs]; split <;> simp [ih]

@[simp] theorem State.loadRegs_pc (a n : Nat) : (s.loadRegs a n).pc = s.pc := by
  induction n with
  | zero => rfl
  | succ n ih => simp only [State.loadRegs]; split <;> simp [ih]

@[simp] theorem State.loadRegs_stack (a n : Nat) : (s.loadRegs a n).stack = s.stack := by
  induction n with
  | zero => rfl
  | succ n ih => simp only [State.loadRegs]; split <;> simp [ih]

@[simp] theorem State.loadRegs_sp (a n : Nat) : (s.loadRegs a n).sp = s.sp := by
  induction n with
  | zero => rfl
  | succ n ih => simp only [State.loadRegs]; split <;> simp [ih]

@[simp] theorem State.loadRegs_dt (a n : Nat) : (s.loadRegs a n).dt = s.dt := by
  induction n with
  | zero => rfl
  | succ n ih => simp only [State.loadRegs]; split <;> simp [ih]

@[simp] theorem State.loadRegs_st (a n : Nat) : (s.loadRegs a n).st = s.st := by
  induction n with
  | zero => rfl
  | succ n ih => simp only [State.loadRegs]; split <;> simp [ih]

@[simp] theorem State.loadRegs_mem (a n : Nat) : (s.loadRegs a n).mem = s.mem := by
  induction n with
  | zero => rfl
  | succ n ih => simp only [State.loadRegs]; split <;> simp [ih]

@[simp] theorem State.loadRegs_fb (a n : Nat) : (s.loadRegs a n).fb = s.fb := by
  induction n with
  | zero => rfl
  | succ n ih => simp only [State.loadRegs]; split <;> simp [ih]

@[simp] theorem State.loadRegs_redraw (a n : Nat) : (s.loadRegs a n).redraw = s.redraw := by
  induction n with
  | zero => rfl
  | succ n ih => simp only [State.loadRegs]; split <;> simp [ih]

@[simp] theorem State.loadRegs_keys (a n : Nat) : (s.loadRegs a n).keys = s.keys := by
  induction n with
  | zero => rfl
  | succ n ih => simp only [State.loadRegs]; split <;> simp [ih]

@[simp] theorem State.loadRegs_fault (a n : Nat) : (s.loadRegs a n).fault = s.fault := by
  induction n with
  | zero => rfl
  | succ n ih => simp only [State.loadRegs]; split <;> simp [ih]

@[simp] theorem State.loadRegs_font (a n : Nat) : (s.loadRegs a n).font = s.font := by
  induction n with
  | zero => rfl
  | succ n ih => simp only [State.loadRegs]; split <;> simp [ih]

@[simp] theorem State.loadRegs_draws (a n : Nat) : (s.loadRegs a n).draws = s.draws := by
  induction n with
  | zero => rfl
  | succ n ih => simp only [State.loadRegs]; split <;> simp [ih]

@[simp] theorem State.loadRegs_byteAt (a n b : Nat) : (s.loadRegs a n).byteAt b = s.byteAt b := by
  simp [State.byteAt]

end Sys2Proof.Machine
end

