-- ==== Sys2Proof/Laws/Ops.lean ====
section
/-! SUPPORT. One lemma per shared operation, saying everything it does. -/

namespace Sys2Proof.Machine

variable (s : State)

/-! ### Registers -/

theorem State.reg_setReg (x k : RegIdx) (b : Byte) : (s.setReg x b).reg k = if k = x then b else s.reg k := by
  simp only [State.setReg, State.reg, Vector.get_eq_getElem, Vector.getElem_set, Fin.ext_iff, eq_comm]

@[simp] theorem State.reg_setReg_self (x : RegIdx) (b : Byte) : (s.setReg x b).reg x = b := by
  simp [State.reg_setReg]

theorem State.reg_setReg_ne {x k : RegIdx} (b : Byte) (h : k ≠ x) : (s.setReg x b).reg k = s.reg k := by
  simp [State.reg_setReg, h]

theorem State.reg_setFlag (k : RegIdx) (b : Byte) : (s.setFlag b).reg k = if k = regVF then b else s.reg k :=
  s.reg_setReg regVF k b

@[simp] theorem State.reg_setFlag_self (b : Byte) : (s.setFlag b).reg regVF = b := s.reg_setReg_self regVF b

/-- Everything `flagThenResult` does to the registers (R140): the result at `x`, the flag at `VF` unless `x` is `VF`. -/
theorem State.reg_flagThenResult (g : Byte) (x k : RegIdx) (f : State → Byte) :
    (s.flagThenResult g x f).reg k =
      if k = x then f (s.setFlag g) else if k = regVF then g else s.reg k := by
  simp only [State.flagThenResult, State.reg_setReg, State.reg_setFlag]

/-- Everything `loadRegs` does to the registers: the first `count` hold the bytes from `a` on. -/
theorem State.reg_loadRegs (a n : Nat) (k : RegIdx) :
    (s.loadRegs a n).reg k = if k.val < n then s.byteAt (a + k.val) else s.reg k := by
  induction n with
  | zero => rfl
  | succ n ih =>
    simp only [State.loadRegs]
    have hk := k.isLt
    split
    · rw [State.reg_setReg, State.loadRegs_byteAt, ih]
      by_cases h : k.val = n
      · have : k = ⟨n, by omega⟩ := Fin.ext h
        simp [this]
      · have : k ≠ ⟨n, by omega⟩ := fun e => h (congrArg Fin.val e)
        rw [if_neg this]; congr 1; simp; omega
    · rw [ih, if_pos (by omega), if_pos (by omega)]

theorem State.reg_drawSprite (x y k : RegIdx) (n : Nat) :
    (s.drawSprite x y n).reg k =
      if k = regVF then
        collisionFlag (plotRows ((s.reg x).toNat % 64) ((s.reg y).toNat % 32) (s.spriteBytes n) (s.fb, false)).2
      else s.reg k :=
  s.reg_setFlag k _

/-! ### Memory -/

@[simp] theorem memIndex_lt (a : Nat) : memIndex a < 4096 := Nat.mod_lt _ (by decide)

theorem State.byteAt_congr {a b : Nat} (h : memIndex a = memIndex b) : s.byteAt a = s.byteAt b := by
  simp [State.byteAt, h]

/-- An access is reduced mod 4096 (R53). -/
@[simp] theorem State.byteAt_mod (a : Nat) : s.byteAt (a % 4096) = s.byteAt a :=
  s.byteAt_congr (by simp [memIndex])

theorem State.byteAt_storeByte (a k : Nat) (b : Byte) :
    (s.storeByte a b).byteAt k = if memIndex a = memIndex k then b else s.byteAt k :=
  Memory.read_write _ _ _ _ _

/-- A multi-byte store leaves every byte outside the stored ones alone. -/
theorem State.byteAt_storeBytes_outside (a b : Nat) (bs : List Byte)
    (h : ∀ k, k < bs.length → memIndex (a + k) ≠ memIndex b) : (s.storeBytes a bs).byteAt b = s.byteAt b := by
  induction bs generalizing s a with
  | nil => rfl
  | cons c bs ih =>
    have h0 : memIndex a ≠ memIndex b := h 0 (by simp)
    rw [State.storeBytes, ih, State.byteAt_storeByte, if_neg h0]
    intro k hk
    have := h (k + 1) (by simpa using hk)
    rwa [show a + (k + 1) = a + 1 + k by omega] at this

/-- A multi-byte store of at most 4096 bytes leaves byte `k` of the list at `a + k`. -/
theorem State.byteAt_storeBytes (a k : Nat) (bs : List Byte) (hlen : bs.length ≤ 4096) (hk : k < bs.length) :
    (s.storeBytes a bs).byteAt (a + k) = bs[k] := by
  induction bs generalizing s a k with
  | nil => simp at hk
  | cons c bs ih =>
    simp only [List.length_cons] at hlen hk
    cases k with
    | zero =>
      rw [State.storeBytes, State.byteAt_storeBytes_outside, State.byteAt_storeByte]
      · simp
      · intro j hj
        simp only [memIndex]; omega
    | succ k =>
      have := ih (s.storeByte a c) (a + 1) k (by omega) (by omega)
      rw [State.storeBytes, show a + (k + 1) = a + 1 + k by omega, this]
      simp

theorem State.storeBytes_wf (a : Nat) (bs : List Byte) (h : Memory.wf s.font s.mem) :
    Memory.wf s.font (s.storeBytes a bs).mem := by
  induction bs generalizing s a with
  | nil => exact h
  | cons c bs ih => exact ih (s.storeByte a c) (a + 1) (Memory.write_wf (memIndex_lt a) h)

/-! ### Call stack -/

/-- Everything `push` does: it answers exactly when the stack is not full. -/
theorem State.push_eq_some {w : Word} {t : State} :
    s.push w = some t ↔
      ∃ h : s.sp.val < 16,
        t = { s with stack := s.stack.set s.sp.val w h, sp := ⟨s.sp.val + 1, Nat.succ_lt_succ h⟩ } := by
  unfold State.push
  split
  · next h => simp [h, eq_comm]
  · next h => simp [h]

theorem State.push_eq_none {w : Word} : s.push w = none ↔ s.sp.val = 16 := by
  have := s.sp.isLt
  unfold State.push
  split <;> simp <;> omega

/-- Everything `pop` does: it answers exactly when the stack is not empty. -/
theorem State.pop_eq_some {w : Word} {t : State} :
    s.pop = some (w, t) ↔
      ∃ (k : Nat) (h : k < 16), s.sp.val = k + 1 ∧ w = s.stack[k] ∧ t = { s with sp := ⟨k, by omega⟩ } := by
  unfold State.pop
  split
  · next h => simp [h]
  · next h =>
    have hlt := s.sp.isLt
    constructor
    · intro e
      simp only [Option.some.injEq, Prod.mk.injEq] at e
      exact ⟨s.sp.val - 1, by omega, by omega, e.1.symm, e.2.symm⟩
    · rintro ⟨k, hk, hsp, rfl, rfl⟩
      simp [hsp]

theorem State.pop_eq_none : s.pop = none ↔ s.sp.val = 0 := by
  unfold State.pop
  split <;> simp_all

/-! ### Keypad -/

theorem State.keyDown_setKey (k j : Fin 16) (d : Bool) :
    (s.setKey k d).keyDown j = if j = k then d else s.keyDown j := by
  simp only [State.setKey, State.keyDown, Vector.get_eq_getElem, Vector.getElem_set, Fin.ext_iff, eq_comm]

/-- A scan whose last match wins finds the last element that matches. -/
theorem foldl_last_match {α : Type} (p : α → Bool) (l : List α) (init : Option α) :
    l.foldl (fun found k => if p k then some k else found) init = ((l.reverse.find? p).or init) := by
  induction l generalizing init with
  | nil => simp
  | cons a l ih =>
    simp only [List.foldl_cons, ih, List.reverse_cons, List.find?_append]
    cases h : l.reverse.find? p <;> cases hp : p a <;> simp [hp]

theorem State.highestKey_eq : s.highestKey = ((List.finRange 16).reverse.find? s.keyDown) := by
  rw [State.highestKey, foldl_last_match]; simp

/-- No key is pressed exactly when the scan finds none. -/
theorem State.highestKey_eq_none : s.highestKey = none ↔ ∀ k, s.keyDown k = false := by
  simp [State.highestKey_eq, List.find?_eq_none]

/-- In a falling list the first match is the largest. -/
theorem find_largest (p : Fin 16 → Bool) (l : List (Fin 16)) (hl : l.Pairwise (fun a b => b < a)) (k : Fin 16) :
    l.find? p = some k ↔ k ∈ l ∧ p k = true ∧ ∀ j ∈ l, k < j → p j = false := by
  induction l with
  | nil => simp
  | cons a l ih =>
    rw [List.pairwise_cons] at hl
    by_cases ha : p a = true
    · rw [List.find?_cons_of_pos ha]
      simp only [Option.some.injEq, List.mem_cons, forall_eq_or_imp]
      constructor
      · rintro rfl
        exact ⟨.inl rfl, ha, fun h => absurd h (lt_irrefl _), fun j hj h => absurd h (lt_asymm (hl.1 j hj))⟩
      · rintro ⟨rfl | hk, -, h, -⟩
        · rfl
        · exact absurd (h (hl.1 k hk)) (by simp [ha])
    · rw [List.find?_cons_of_neg ha, ih hl.2]
      simp only [List.mem_cons, forall_eq_or_imp]
      constructor
      · rintro ⟨h1, h2, h3⟩
        exact ⟨.inr h1, h2, fun _ => Bool.eq_false_iff.2 ha, h3⟩
      · rintro ⟨rfl | h1, h2, -, h3⟩
        · exact absurd h2 ha
        · exact ⟨h1, h2, h3⟩

/-- The scan finds the pressed key with no pressed key above it (R193, D8). -/
theorem State.highestKey_eq_some {k : Fin 16} :
    s.highestKey = some k ↔ s.keyDown k = true ∧ ∀ j, k < j → s.keyDown j = false := by
  rw [State.highestKey_eq, find_largest _ _ (by decide)]
  simp

/-! ### Framebuffer -/

theorem Framebuffer.pixel_setPixel (fb : Framebuffer) (x x' : Fin 64) (y y' : Fin 32) (on : Bool) :
    (fb.setPixel x y on).pixel x' y' = if x' = x ∧ y' = y then on else fb.pixel x' y' := by
  simp only [Framebuffer.setPixel, Framebuffer.pixel, Vector.get_eq_getElem, Vector.getElem_set, Fin.ext_iff]
  by_cases hy : y.val = y'.val
  · by_cases hx : x.val = x'.val
    · simp [hx, hy]
    · simp [hx, hy, eq_comm]
  · simp [hy, eq_comm]

@[simp] theorem Framebuffer.pixel_clear (x : Fin 64) (y : Fin 32) : Framebuffer.clear.pixel x y = false := by
  simp [Framebuffer.clear, Framebuffer.pixel, Vector.get_eq_getElem]

/-- Two framebuffers with the same pixels are the same. -/
theorem Framebuffer.ext_pixel {a b : Framebuffer} (h : ∀ x y, a.pixel x y = b.pixel x y) : a = b := by
  apply Vector.ext; intro y hy
  apply Vector.ext; intro x hx
  simpa [Framebuffer.pixel, Vector.get_eq_getElem] using h ⟨x, hx⟩ ⟨y, hy⟩

/-! ### Taking a fault -/

/-- On the state after the fetch, taking a fault gives back the state before it with the record added (R225). -/
theorem State.advancePc_takeFault (kind : FaultKind) (op : Word) :
    s.advancePc.takeFault kind op = { s with fault := some ⟨kind, op, s.pc⟩ } := by
  simp [State.takeFault, State.advancePc, State.rewindPc]

end Sys2Proof.Machine
end

