-- ==== Sys2Proof/Laws/Display.lean ====
section
/-! SUPPORT. What drawing a sprite does, pixel by pixel: the loops of DXYN against the sprite's set bits. -/

namespace Sys2Proof.Machine

theorem plotBit_pixel (px py : Nat) (c : Canvas) (x : Fin 64) (y : Fin 32) :
    (plotBit px py c).1.pixel x y = (c.1.pixel x y ^^ decide (x.val = px ∧ y.val = py)) := by
  unfold plotBit
  split
  · next h =>
    have hp : (x = ⟨px, h.1⟩ ∧ y = ⟨py, h.2⟩) ↔ (x.val = px ∧ y.val = py) := by simp [Fin.ext_iff]
    split
    · next hon =>
      rw [Framebuffer.pixel_setPixel]
      by_cases e : x.val = px ∧ y.val = py
      · obtain ⟨rfl, rfl⟩ := hp.2 e; simp_all
      · simp [hp, e]
    · next hoff =>
      rw [Framebuffer.pixel_setPixel]
      by_cases e : x.val = px ∧ y.val = py
      · obtain ⟨rfl, rfl⟩ := hp.2 e; simp_all
      · simp [hp, e]
  · next h =>
    have : ¬ (x.val = px ∧ y.val = py) := by
      rintro ⟨rfl, rfl⟩; exact h ⟨x.isLt, y.isLt⟩
    simp [this]

theorem plotBit_hit (px py : Nat) (c : Canvas) :
    (plotBit px py c).2 = true ↔
      c.2 = true ∨ ∃ x : Fin 64, ∃ y : Fin 32, x.val = px ∧ y.val = py ∧ c.1.pixel x y = true := by
  unfold plotBit
  split
  · next h =>
    have hex : (∃ x : Fin 64, ∃ y : Fin 32, x.val = px ∧ y.val = py ∧ c.1.pixel x y = true) ↔
        c.1.pixel ⟨px, h.1⟩ ⟨py, h.2⟩ = true := by
      constructor
      · rintro ⟨x, y, rfl, rfl, hp⟩; exact hp
      · intro hp; exact ⟨_, _, rfl, rfl, hp⟩
    rw [hex]
    split <;> simp_all
  · next h =>
    constructor
    · exact .inl
    · rintro (h' | ⟨x, y, rfl, rfl, -⟩)
      · exact h'
      · exact absurd ⟨x.isLt, y.isLt⟩ h

/-- The first `m` columns of a sprite row. -/
def rowBit (ox py m : Nat) (b : Byte) (px py' : Nat) : Bool :=
  decide (py' = py ∧ ox ≤ px ∧ px < ox + m) && b.getLsbD (7 - (px - ox))

/-- The loop over the first `m` columns. -/
def plotCols (ox py m : Nat) (b : Byte) (c : Canvas) : Canvas :=
  (List.range m).foldl (fun c col => if b.getLsbD (7 - col) then plotBit (ox + col) py c else c) c

theorem plotCols_succ (ox py m : Nat) (b : Byte) (c : Canvas) :
    plotCols ox py (m + 1) b c =
      if b.getLsbD (7 - m) then plotBit (ox + m) py (plotCols ox py m b c) else plotCols ox py m b c := by
  simp [plotCols, List.range_succ]

theorem rowBit_succ (ox py m : Nat) (b : Byte) (px py' : Nat) :
    rowBit ox py (m + 1) b px py' =
      (rowBit ox py m b px py' || (b.getLsbD (7 - m) && decide (px = ox + m ∧ py' = py))) := by
  unfold rowBit
  by_cases h : px = ox + m
  · subst h; simp
    by_cases h : py' = py <;> simp [h]
  · have : (py' = py ∧ ox ≤ px ∧ px < ox + (m + 1)) ↔ (py' = py ∧ ox ≤ px ∧ px < ox + m) := by omega
    simp [this, h]

theorem rowBit_disjoint (ox py m : Nat) (b : Byte) (py' : Nat) : rowBit ox py m b (ox + m) py' = false := by
  simp [rowBit]

theorem plotCols_pixel (ox py m : Nat) (b : Byte) (c : Canvas) (x : Fin 64) (y : Fin 32) :
    (plotCols ox py m b c).1.pixel x y = (c.1.pixel x y ^^ rowBit ox py m b x.val y.val) := by
  induction m with
  | zero =>
    have : ¬ (y.val = py ∧ ox ≤ x.val ∧ x.val < ox + 0) := by omega
    simp only [plotCols, rowBit, this, List.range_zero, List.foldl_nil, decide_false, Bool.false_and, Bool.xor_false]
  | succ m ih =>
    rw [plotCols_succ, rowBit_succ]
    by_cases hb : b.getLsbD (7 - m) = true
    · rw [if_pos hb, plotBit_pixel, ih, hb, Bool.true_and]
      by_cases e : x.val = ox + m ∧ y.val = py
      · rw [e.1, rowBit_disjoint]; simp [e.2]
      · simp [e]
    · rw [if_neg hb, ih]; simp [hb]

theorem plotCols_hit (ox py m : Nat) (b : Byte) (c : Canvas) :
    (plotCols ox py m b c).2 = true ↔
      c.2 = true ∨ ∃ x : Fin 64, ∃ y : Fin 32, rowBit ox py m b x.val y.val = true ∧ c.1.pixel x y = true := by
  induction m with
  | zero =>
    simp only [plotCols, rowBit, List.range_zero, List.foldl_nil, Bool.and_eq_true, decide_eq_true_eq]
    constructor
    · exact .inl
    · rintro (h | ⟨x, y, h, -⟩)
      · exact h
      · omega
  | succ m ih =>
    rw [plotCols_succ]
    by_cases hb : b.getLsbD (7 - m) = true
    · rw [if_pos hb, plotBit_hit, ih, or_assoc]
      refine or_congr_right ?_
      constructor
      · rintro (⟨x, y, h1, h2⟩ | ⟨x, y, hx, hy, h⟩)
        · exact ⟨x, y, by simp [rowBit_succ, h1], h2⟩
        · refine ⟨x, y, by simp [rowBit_succ, hb, hx, hy], ?_⟩
          rw [plotCols_pixel, hx, rowBit_disjoint, Bool.xor_false] at h
          exact h
      · rintro ⟨x, y, h1, h2⟩
        rw [rowBit_succ, Bool.or_eq_true] at h1
        rcases h1 with h1 | h1
        · exact .inl ⟨x, y, h1, h2⟩
        · simp only [Bool.and_eq_true, decide_eq_true_eq] at h1
          exact .inr ⟨x, y, h1.2.1, h1.2.2, by rw [plotCols_pixel, h1.2.1, rowBit_disjoint, h2]; rfl⟩
    · rw [if_neg hb, ih]
      simp [rowBit_succ, hb]

theorem spriteBit_cons (ox oy : Nat) (b : Byte) (bs : List Byte) (px py : Nat) :
    spriteBit ox oy (b :: bs) px py = (rowBit ox oy 8 b px py || spriteBit ox (oy + 1) bs px py) := by
  unfold spriteBit rowBit
  by_cases h : py = oy
  · subst h
    simp
  · by_cases h' : oy < py
    · obtain ⟨k, rfl⟩ : ∃ k, py = oy + 1 + k := ⟨py - oy - 1, by omega⟩
      have e1 : (ox ≤ px ∧ px < ox + 8 ∧ oy ≤ oy + 1 + k ∧ oy + 1 + k < oy + (b :: bs).length) ↔
          (ox ≤ px ∧ px < ox + 8 ∧ oy + 1 ≤ oy + 1 + k ∧ oy + 1 + k < oy + 1 + bs.length) := by
        simp only [List.length_cons]; omega
      have e2 : oy + 1 + k - oy = k + 1 := by omega
      have e3 : oy + 1 + k - (oy + 1) = k := by omega
      simp only [e1, e2, e3, List.getD_cons_succ, h, false_and, decide_false, Bool.false_and, Bool.false_or]
    · have e1 : ¬ (ox ≤ px ∧ px < ox + 8 ∧ oy ≤ py ∧ py < oy + (b :: bs).length) := by omega
      have e2 : ¬ (ox ≤ px ∧ px < ox + 8 ∧ oy + 1 ≤ py ∧ py < oy + 1 + bs.length) := by omega
      simp only [e1, e2, h, false_and, decide_false, Bool.false_and, Bool.false_or]

theorem rowBit_spriteBit_disjoint {ox oy : Nat} {b : Byte} {bs : List Byte} {px py : Nat}
    (h : rowBit ox oy 8 b px py = true) : spriteBit ox (oy + 1) bs px py = false := by
  simp only [rowBit, Bool.and_eq_true, decide_eq_true_eq] at h
  have : ¬ (ox ≤ px ∧ px < ox + 8 ∧ oy + 1 ≤ py ∧ py < oy + 1 + bs.length) := by omega
  simp only [spriteBit, this, decide_false, Bool.false_and]

/-- Every pixel after a sprite is what it was, exclusive-or the sprite's bit there (R101). -/
theorem plotRows_pixel (ox oy : Nat) (bs : List Byte) (c : Canvas) (x : Fin 64) (y : Fin 32) :
    (plotRows ox oy bs c).1.pixel x y = (c.1.pixel x y ^^ spriteBit ox oy bs x.val y.val) := by
  induction bs generalizing oy c with
  | nil => simp [plotRows, spriteBit]
  | cons b bs ih =>
    rw [plotRows, ih, show plotRow ox oy b c = plotCols ox oy 8 b c from rfl, plotCols_pixel, spriteBit_cons]
    by_cases h : rowBit ox oy 8 b x.val y.val = true
    · simp [h, rowBit_spriteBit_disjoint h]
    · simp [h]

/-- A collision is reported exactly when a set bit of the sprite fell on an on pixel of the grid (R101, R102). -/
theorem plotRows_hit (ox oy : Nat) (bs : List Byte) (c : Canvas) :
    (plotRows ox oy bs c).2 = true ↔
      c.2 = true ∨
        ∃ x : Fin 64, ∃ y : Fin 32, spriteBit ox oy bs x.val y.val = true ∧ c.1.pixel x y = true := by
  induction bs generalizing oy c with
  | nil =>
    constructor
    · exact .inl
    · rintro (h | ⟨x, y, h, -⟩)
      · exact h
      · simp [spriteBit] at h
  | cons b bs ih =>
    rw [plotRows, ih, show plotRow ox oy b c = plotCols ox oy 8 b c from rfl, plotCols_hit, or_assoc]
    refine or_congr_right ?_
    constructor
    · rintro (⟨x, y, h1, h2⟩ | ⟨x, y, h1, h2⟩)
      · exact ⟨x, y, by simp [spriteBit_cons, h1], h2⟩
      · refine ⟨x, y, by simp [spriteBit_cons, h1], ?_⟩
        have : rowBit ox oy 8 b x.val y.val = false := by
          rw [← Bool.not_eq_true]; intro h
          rw [rowBit_spriteBit_disjoint h] at h1; cases h1
        rwa [plotCols_pixel, this, Bool.xor_false] at h2
    · rintro ⟨x, y, h1, h2⟩
      by_cases h : rowBit ox oy 8 b x.val y.val = true
      · exact .inl ⟨x, y, h, h2⟩
      · rw [spriteBit_cons, Bool.not_eq_true _ |>.mp h, Bool.false_or] at h1
        exact .inr ⟨x, y, h1, by simp [plotCols_pixel, h, h2]⟩

/-- The bytes of a sprite: as many as it has rows, row `r` from `I + r` (R101). -/
@[simp] theorem State.spriteBytes_length (s : State) (n : Nat) : (s.spriteBytes n).length = n := by
  simp [State.spriteBytes]

theorem State.spriteBytes_getElem (s : State) (n r : Nat) (h : r < n) :
    (s.spriteBytes n)[r]'(by simpa using h) = s.byteAt (s.i.toNat + r) := by
  simp [State.spriteBytes, State.dataAddr]

end Sys2Proof.Machine
end

