-- ==== Sys2Proof/Laws/Exec.lean ====
section
/-! SUPPORT. What a step and an instruction can do, said once: the inversion lemmas of `step` and `exec`. -/

namespace Sys2Proof.Machine

variable {s t : State} {i : Instr}

/-- A step that answers a next state came from a core that was not halted, and either took DecodeFault or ran the
instruction it fetched (R82). -/
theorem step_cases (h : step s = .next t) :
    s.fault = none ∧
      ((∃ e, decodeWord s.fetchWord = .error e ∧ t = { s with fault := some ⟨.decodeFault, s.fetchWord, s.pc⟩ }) ∨
       ∃ i, decodeWord s.fetchWord = .ok i ∧ exec i s.advancePc = .next t) := by
  unfold step at h
  split at h
  · cases h
  · next hf =>
    refine ⟨hf, ?_⟩
    split at h
    · next e he => cases h; exact .inl ⟨e, he, State.advancePc_takeFault _ _ _⟩
    · next i hi => exact .inr ⟨i, hi, h⟩

/-- The condition under which an instruction takes a fault of a kind (R220, R228). -/
def takesFault (s : State) : Instr → FaultKind → Prop
  | .call _, .stackOverflow => s.sp.val = 16
  | .ret, .stackUnderflow => s.sp.val = 0
  | .skp x, .keyIndexFault => (s.reg x).toNat > 15
  | .sknp x, .keyIndexFault => (s.reg x).toNat > 15
  | _, _ => False

theorem keyOperand_eq_none {b : Byte} : keyOperand b = none ↔ b.toNat > 15 := by
  unfold keyOperand
  split <;> simp <;> omega

theorem keyOperand_eq_some {b : Byte} {k : Fin 16} : keyOperand b = some k ↔ b.toNat = k.val := by
  unfold keyOperand
  have := k.isLt
  split
  · simp [Fin.ext_iff]
  · simp; omega

/-- An instruction that answers a next state either took its one fault, under that fault's condition, or left `FAULT`
alone (R228). -/
theorem exec_fault_cases (h : exec i s = .next t) :
    (∃ kind, takesFault s i kind ∧ t = s.takeFault kind (encode i)) ∨ t.fault = s.fault := by
  cases i with
  | ret =>
    simp only [exec, execRet] at h
    split at h
    · next hp => cases h; exact .inl ⟨.stackUnderflow, s.pop_eq_none.1 hp, rfl⟩
    · next target u hp =>
      cases h
      obtain ⟨k, hk, -, -, rfl⟩ := s.pop_eq_some.1 hp
      exact .inr rfl
  | call nnn =>
    simp only [exec, execCall] at h
    split at h
    · next hp => cases h; exact .inl ⟨.stackOverflow, s.push_eq_none.1 hp, rfl⟩
    · next u hp =>
      cases h
      obtain ⟨-, rfl⟩ := s.push_eq_some.1 hp
      exact .inr rfl
  | skp x =>
    simp only [exec, execSkp] at h
    split at h
    · next hp => cases h; exact .inl ⟨.keyIndexFault, keyOperand_eq_none.1 hp, rfl⟩
    · cases h; simp
  | sknp x =>
    simp only [exec, execSknp] at h
    split at h
    · next hp => cases h; exact .inl ⟨.keyIndexFault, keyOperand_eq_none.1 hp, rfl⟩
    · cases h; simp
  | ldVxK x =>
    simp only [exec, execLdVxK] at h
    split at h <;> cases h <;> simp
  | cls => cases h; exact .inr rfl
  | ldDtVx x => cases h; exact .inr rfl
  | ldStVx x => cases h; exact .inr rfl
  | jp _ | seImm _ _ | sneImm _ _ | seReg _ _ | ldImm _ _ | addImm _ _ | ldReg _ _ | or _ _ | and _ _ | xor _ _
  | addReg _ _ | sub _ _ | shr _ _ | shl _ _ | sneReg _ _ | ldI _ | rnd _ _ | drw _ _ _ | ldVxDt _ | addI _ | ldF _
  | ldB _ | ldMemI _ | ldVxMemI _ =>
    simp only [exec, execJp, execSeImm, execSneImm, execSeReg, execLdImm, execAddImm, execLdReg, execOr, execAnd,
      execXor, execAddReg, execSub, execShr, execShl, execSneReg, execLdI, execRnd, execDrw, execLdVxDt, execAddI,
      execLdF, execLdB, execLdMemI, execLdVxMemI] at h
    cases h
    right
    simp

/-- Memory after an instruction is memory before it with some bytes stored, and `FONT` is the same (R51). -/
theorem exec_memory_cases (h : exec i s = .next t) :
    t.font = s.font ∧ ∃ a bs, t.mem = (s.storeBytes a bs).mem := by
  cases i with
  | ret =>
    simp only [exec, execRet] at h
    split at h
    · cases h; exact ⟨rfl, 0, [], rfl⟩
    · next target u hp =>
      cases h
      obtain ⟨k, hk, -, -, rfl⟩ := s.pop_eq_some.1 hp
      exact ⟨rfl, 0, [], rfl⟩
  | call nnn =>
    simp only [exec, execCall] at h
    split at h
    · cases h; exact ⟨rfl, 0, [], rfl⟩
    · next u hp =>
      cases h
      obtain ⟨-, rfl⟩ := s.push_eq_some.1 hp
      exact ⟨rfl, 0, [], rfl⟩
  | skp x =>
    simp only [exec, execSkp] at h
    split at h <;> cases h <;> exact ⟨by simp, 0, [], by simp [State.storeBytes]⟩
  | sknp x =>
    simp only [exec, execSknp] at h
    split at h <;> cases h <;> exact ⟨by simp, 0, [], by simp [State.storeBytes]⟩
  | ldVxK x =>
    simp only [exec, execLdVxK] at h
    split at h <;> cases h <;> exact ⟨by simp, 0, [], by simp [State.storeBytes]⟩
  | cls => cases h; exact ⟨rfl, 0, [], rfl⟩
  | ldDtVx x => cases h; exact ⟨rfl, 0, [], rfl⟩
  | ldStVx x => cases h; exact ⟨rfl, 0, [], rfl⟩
  | ldB x =>
    simp only [exec, execLdB] at h
    cases h
    exact ⟨by simp, _, _, rfl⟩
  | ldMemI x =>
    simp only [exec, execLdMemI] at h
    cases h
    exact ⟨by simp, _, _, rfl⟩
  | jp _ | seImm _ _ | sneImm _ _ | seReg _ _ | ldImm _ _ | addImm _ _ | ldReg _ _ | or _ _ | and _ _ | xor _ _
  | addReg _ _ | sub _ _ | shr _ _ | shl _ _ | sneReg _ _ | ldI _ | rnd _ _ | drw _ _ _ | ldVxDt _ | addI _ | ldF _
  | ldVxMemI _ =>
    simp only [exec, execJp, execSeImm, execSneImm, execSeReg, execLdImm, execAddImm, execLdReg, execOr, execAnd,
      execXor, execAddReg, execSub, execShr, execShl, execSneReg, execLdI, execRnd, execDrw, execLdVxDt, execAddI,
      execLdF, execLdVxMemI] at h
    cases h
    exact ⟨by simp, 0, [], by simp [State.storeBytes]⟩

/-- An instruction keeps memory in its canonical form. -/
theorem exec_memory_wf (h : exec i s = .next t) (hm : Memory.wf s.font s.mem) : Memory.wf t.font t.mem := by
  obtain ⟨hf, a, bs, hmem⟩ := exec_memory_cases h
  rw [hf, hmem]
  exact s.storeBytes_wf a bs hm

end Sys2Proof.Machine
end

