-- ==== Sys2Proof/Laws/PerInstr.lean ====
section
/-! SUPPORT. Family EncodingRow: the word of an instruction carries the fixed bits of the instruction's own row of the
opcode map (30_encoding R86), whatever its operands. -/

namespace Sys2Proof.Laws.EncodingRow

/-- The row of the instruction's mnemonic accepts its word. -/
def Statement (i : Instr) : Prop := ∃ r ∈ opcodeTable, r.mnemonic = i.mnemonic ∧ r.accepts (encode i) = true

/-! Masking a word digit by digit: a field that a mask covers stays, a field it does not cover is cleared. -/

theorem nibble_and_F (a : Nibble) : a &&& 0xF#4 = a := BitVec.and_allOnes

theorem addrWord_masked (a : Nibble) (nnn : Addr12) : (a ++ nnn : Word) &&& 0xF000#16 = a ++ 0#12 := by
  have := BitVec.and_append (x₁ := a) (x₂ := 0xF#4) (y₁ := nnn) (y₂ := 0#12)
  rw [BitVec.and_zero, nibble_and_F] at this
  exact this

theorem immWord_masked (a b : Nibble) (nn : Byte) : (a ++ b ++ nn : Word) &&& 0xF000#16 = a ++ 0#4 ++ 0#8 := by
  have h : a ++ b ++ nn &&& 0xF#4 ++ 0x0#4 ++ 0x00#8 = a ++ 0#4 ++ 0#8 := by
    rw [BitVec.and_append, BitVec.and_append, BitVec.and_zero, BitVec.and_zero, nibble_and_F]
  exact h

theorem byteWord_masked (a b : Nibble) (nn : Byte) : (a ++ b ++ nn : Word) &&& 0xF0FF#16 = a ++ 0#4 ++ nn := by
  have h : a ++ b ++ nn &&& 0xF#4 ++ 0x0#4 ++ 0xFF#8 = a ++ 0#4 ++ nn := by
    rw [BitVec.and_append, BitVec.and_append, BitVec.and_zero, nibble_and_F,
      show nn &&& 0xFF#8 = nn from BitVec.and_allOnes]
  exact h

theorem regWord_masked (a b c d : Nibble) :
    (a ++ b ++ c ++ d : Word) &&& 0xF00F#16 = a ++ 0#4 ++ 0#4 ++ d := by
  have h : a ++ b ++ c ++ d &&& 0xF#4 ++ 0x0#4 ++ 0x0#4 ++ 0xF#4 = a ++ 0#4 ++ 0#4 ++ d := by
    rw [BitVec.and_append, BitVec.and_append, BitVec.and_append, BitVec.and_zero, BitVec.and_zero, nibble_and_F,
      nibble_and_F]
  exact h

theorem drawWord_masked (a b c d : Nibble) :
    (a ++ b ++ c ++ d : Word) &&& 0xF000#16 = a ++ 0#4 ++ 0#4 ++ 0#4 := by
  have h : a ++ b ++ c ++ d &&& 0xF#4 ++ 0x0#4 ++ 0x0#4 ++ 0x0#4 = a ++ 0#4 ++ 0#4 ++ 0#4 := by
    rw [BitVec.and_append, BitVec.and_append, BitVec.and_append, BitVec.and_zero, BitVec.and_zero, BitVec.and_zero,
      nibble_and_F]
  exact h

/-- A row of the table whose mnemonic is the instruction's and whose masked word is its value. -/
theorem of_row {i : Instr} (k : Nat) (hk : k < opcodeTable.length)
    (hm : opcodeTable[k].mnemonic = i.mnemonic) (hv : encode i &&& opcodeTable[k].mask = opcodeTable[k].value) :
    Statement i :=
  ⟨opcodeTable[k], List.getElem_mem hk, hm, beq_iff_eq.2 hv⟩

theorem cls : Statement .cls := of_row 0 (by decide) rfl (by decide)
theorem ret : Statement .ret := of_row 1 (by decide) rfl (by decide)
theorem jp (nnn : Addr12) : Statement (.jp nnn) := of_row 2 (by decide) rfl ((addrWord_masked _ _).trans (by decide))
theorem call (nnn : Addr12) : Statement (.call nnn) :=
  of_row 3 (by decide) rfl ((addrWord_masked _ _).trans (by decide))
theorem seImm (x : RegIdx) (nn : Byte) : Statement (.seImm x nn) :=
  of_row 4 (by decide) rfl ((immWord_masked _ _ _).trans (by decide))
theorem sneImm (x : RegIdx) (nn : Byte) : Statement (.sneImm x nn) :=
  of_row 5 (by decide) rfl ((immWord_masked _ _ _).trans (by decide))
theorem seReg (x y : RegIdx) : Statement (.seReg x y) :=
  of_row 6 (by decide) rfl ((regWord_masked _ _ _ _).trans (by decide))
theorem ldImm (x : RegIdx) (nn : Byte) : Statement (.ldImm x nn) :=
  of_row 7 (by decide) rfl ((immWord_masked _ _ _).trans (by decide))
theorem addImm (x : RegIdx) (nn : Byte) : Statement (.addImm x nn) :=
  of_row 8 (by decide) rfl ((immWord_masked _ _ _).trans (by decide))
theorem ldReg (x y : RegIdx) : Statement (.ldReg x y) :=
  of_row 9 (by decide) rfl ((regWord_masked _ _ _ _).trans (by decide))
theorem or (x y : RegIdx) : Statement (.or x y) :=
  of_row 10 (by decide) rfl ((regWord_masked _ _ _ _).trans (by decide))
theorem and (x y : RegIdx) : Statement (.and x y) :=
  of_row 11 (by decide) rfl ((regWord_masked _ _ _ _).trans (by decide))
theorem xor (x y : RegIdx) : Statement (.xor x y) :=
  of_row 12 (by decide) rfl ((regWord_masked _ _ _ _).trans (by decide))
theorem addReg (x y : RegIdx) : Statement (.addReg x y) :=
  of_row 13 (by decide) rfl ((regWord_masked _ _ _ _).trans (by decide))
theorem sub (x y : RegIdx) : Statement (.sub x y) :=
  of_row 14 (by decide) rfl ((regWord_masked _ _ _ _).trans (by decide))
theorem shr (x y : RegIdx) : Statement (.shr x y) :=
  of_row 15 (by decide) rfl ((regWord_masked _ _ _ _).trans (by decide))
theorem shl (x y : RegIdx) : Statement (.shl x y) :=
  of_row 16 (by decide) rfl ((regWord_masked _ _ _ _).trans (by decide))
theorem sneReg (x y : RegIdx) : Statement (.sneReg x y) :=
  of_row 17 (by decide) rfl ((regWord_masked _ _ _ _).trans (by decide))
theorem ldI (nnn : Addr12) : Statement (.ldI nnn) :=
  of_row 18 (by decide) rfl ((addrWord_masked _ _).trans (by decide))
theorem rnd (x : RegIdx) (nn : Byte) : Statement (.rnd x nn) :=
  of_row 19 (by decide) rfl ((immWord_masked _ _ _).trans (by decide))
theorem drw (x y : RegIdx) (n : Nibble) : Statement (.drw x y n) :=
  of_row 20 (by decide) rfl ((drawWord_masked _ _ _ _).trans (by decide))
theorem skp (x : RegIdx) : Statement (.skp x) :=
  of_row 21 (by decide) rfl ((byteWord_masked _ _ _).trans (by decide))
theorem sknp (x : RegIdx) : Statement (.sknp x) :=
  of_row 22 (by decide) rfl ((byteWord_masked _ _ _).trans (by decide))
theorem ldVxDt (x : RegIdx) : Statement (.ldVxDt x) :=
  of_row 23 (by decide) rfl ((byteWord_masked _ _ _).trans (by decide))
theorem ldVxK (x : RegIdx) : Statement (.ldVxK x) :=
  of_row 24 (by decide) rfl ((byteWord_masked _ _ _).trans (by decide))
theorem ldDtVx (x : RegIdx) : Statement (.ldDtVx x) :=
  of_row 25 (by decide) rfl ((byteWord_masked _ _ _).trans (by decide))
theorem ldStVx (x : RegIdx) : Statement (.ldStVx x) :=
  of_row 26 (by decide) rfl ((byteWord_masked _ _ _).trans (by decide))
theorem addI (x : RegIdx) : Statement (.addI x) :=
  of_row 27 (by decide) rfl ((byteWord_masked _ _ _).trans (by decide))
theorem ldF (x : RegIdx) : Statement (.ldF x) :=
  of_row 28 (by decide) rfl ((byteWord_masked _ _ _).trans (by decide))
theorem ldB (x : RegIdx) : Statement (.ldB x) :=
  of_row 29 (by decide) rfl ((byteWord_masked _ _ _).trans (by decide))
theorem ldMemI (x : RegIdx) : Statement (.ldMemI x) :=
  of_row 30 (by decide) rfl ((byteWord_masked _ _ _).trans (by decide))
theorem ldVxMemI (x : RegIdx) : Statement (.ldVxMemI x) :=
  of_row 31 (by decide) rfl ((byteWord_masked _ _ _).trans (by decide))

end Sys2Proof.Laws.EncodingRow
end

