-- ==== Sys2Proof/Tests/Slice0.lean ====
section
/-! SUPPORT. Tests by hand: the WellFormed checks, decoding of written-out words, one step of each instruction against
the vectors T1 to T107 of 95_test_vectors, and a witness for every statement that has hypotheses or clauses. -/

namespace Sys2Proof.Tests

open Sys2Proof Sys2Proof.Machine

/-- The reset state with a word stored at `PC`, then changed. -/
def loaded (w : Nat) (setup : State → State) : State := setup (State.reset.withFetchWord 16 w)

/-- What is seen of the next state. -/
def seen {α : Type} (o : Host.Outcome State Fault Refusal) (f : State → α) : Option α :=
  match o with
  | .next t => some (f t)
  | _ => none

/-- One step from `loaded w setup`, and what is seen after it. -/
def after {α : Type} (w : Nat) (setup : State → State) (f : State → α) : Option α := seen (step (loaded w setup)) f

/-- `V[x]`, `V[y]` set. -/
def regs (x : RegIdx) (a : Byte) (y : RegIdx) (b : Byte) (s : State) : State := (s.setReg x a).setReg y b

/-- One pixel on. -/
def dot (x : Fin 64) (y : Fin 32) (s : State) : State := { s with fb := s.fb.setPixel x y true }

/-- `V0`, `V1` the origin, `I` at 0x300 with the given sprite bytes. -/
def sprite (ox oy : Byte) (bytes : List Byte) (s : State) : State :=
  ((regs 0 ox 1 oy s).setI 0x300#16).storeBytes 0x300 bytes

/-- A call stack with `n` entries in use. -/
def depth (n : Fin 17) (s : State) : State := { s with sp := n }

/-! ### WellFormed: each check refuses the first number out of range -/

theorem test_wf_reg : WellFormed.reg 16 = false ∧ WellFormed.reg 15 = true := by decide
theorem test_wf_imm4 : WellFormed.imm4 0x10 = false ∧ WellFormed.imm4 0xF = true := by decide
theorem test_wf_imm8 : WellFormed.imm8 0x100 = false ∧ WellFormed.imm8 0xFF = true := by decide
theorem test_wf_addr12 : WellFormed.addr12 0x1000 = false ∧ WellFormed.addr12 0xFFF = true := by decide
theorem test_wf_dataWord : WellFormed.dataWord 0x10000 = false ∧ WellFormed.dataWord 0xFFFF = true := by decide
theorem test_wf_key : WellFormed.key 16 = false ∧ WellFormed.key 15 = true := by decide
theorem test_wf_image : WellFormed.image (List.replicate 3585 0) = false ∧
    WellFormed.image (List.replicate 3584 0) = true :=
  ⟨decide_eq_false (by rw [List.length_replicate]; decide), decide_eq_true (by rw [List.length_replicate]; decide)⟩
theorem test_wf_instr : (Instr.drw 15 15 15#4).wf = true ∧ (Instr.jp 0xFFF#12).wf = true := by decide

/-- The ill-formed lines never become an instruction. -/
theorem test_wf_assembler : assembleInstr ⟨.ld, [.v 16, .num 0]⟩ = none ∧ assembleInstr ⟨.ld, [.v 0, .num 256]⟩ = none ∧
    assembleInstr ⟨.jp, [.num 4096]⟩ = none ∧ assembleInstr ⟨.drw, [.v 0, .v 0, .num 16]⟩ = none ∧
    assembleInstr ⟨.skp, [.v 16]⟩ = none ∧ assembleInstr ⟨.cls, [.num 0]⟩ = none ∧
    assemble ⟨.dw, [.num 65536]⟩ = none := by decide

/-! ### Decoding: words written out from the patterns of 30_encoding R86 -/

theorem test_decode_00E0 : decodeWord 0x00E0#16 = .ok .cls := by decide
theorem test_decode_00EE : decodeWord 0x00EE#16 = .ok .ret := by decide
theorem test_decode_1NNN : decodeWord 0x1ABC#16 = .ok (.jp 0xABC#12) := by decide
theorem test_decode_2NNN : decodeWord 0x2ABC#16 = .ok (.call 0xABC#12) := by decide
theorem test_decode_3XNN : decodeWord 0x31A5#16 = .ok (.seImm 1 0xA5#8) := by decide
theorem test_decode_4XNN : decodeWord 0x41A5#16 = .ok (.sneImm 1 0xA5#8) := by decide
theorem test_decode_5XY0 : decodeWord 0x5120#16 = .ok (.seReg 1 2) := by decide
theorem test_decode_6XNN : decodeWord 0x61A5#16 = .ok (.ldImm 1 0xA5#8) := by decide
theorem test_decode_7XNN : decodeWord 0x71A5#16 = .ok (.addImm 1 0xA5#8) := by decide
theorem test_decode_8XY0 : decodeWord 0x8120#16 = .ok (.ldReg 1 2) := by decide
theorem test_decode_8XY1 : decodeWord 0x8121#16 = .ok (.or 1 2) := by decide
theorem test_decode_8XY2 : decodeWord 0x8122#16 = .ok (.and 1 2) := by decide
theorem test_decode_8XY3 : decodeWord 0x8123#16 = .ok (.xor 1 2) := by decide
theorem test_decode_8XY4 : decodeWord 0x8124#16 = .ok (.addReg 1 2) := by decide
theorem test_decode_8XY5 : decodeWord 0x8125#16 = .ok (.sub 1 2) := by decide
theorem test_decode_8XY6 : decodeWord 0x8126#16 = .ok (.shr 1 2) := by decide
theorem test_decode_8XYE : decodeWord 0x812E#16 = .ok (.shl 1 2) := by decide
theorem test_decode_9XY0 : decodeWord 0x9120#16 = .ok (.sneReg 1 2) := by decide
theorem test_decode_ANNN : decodeWord 0xAABC#16 = .ok (.ldI 0xABC#12) := by decide
theorem test_decode_CXNN : decodeWord 0xC1A5#16 = .ok (.rnd 1 0xA5#8) := by decide
theorem test_decode_DXYN : decodeWord 0xD12C#16 = .ok (.drw 1 2 0xC#4) := by decide
theorem test_decode_EX9E : decodeWord 0xE19E#16 = .ok (.skp 1) := by decide
theorem test_decode_EXA1 : decodeWord 0xE1A1#16 = .ok (.sknp 1) := by decide
theorem test_decode_FX07 : decodeWord 0xF107#16 = .ok (.ldVxDt 1) := by decide
theorem test_decode_FX0A : decodeWord 0xF10A#16 = .ok (.ldVxK 1) := by decide
theorem test_decode_FX15 : decodeWord 0xF115#16 = .ok (.ldDtVx 1) := by decide
theorem test_decode_FX18 : decodeWord 0xF118#16 = .ok (.ldStVx 1) := by decide
theorem test_decode_FX1E : decodeWord 0xF11E#16 = .ok (.addI 1) := by decide
theorem test_decode_FX29 : decodeWord 0xF129#16 = .ok (.ldF 1) := by decide
theorem test_decode_FX33 : decodeWord 0xF133#16 = .ok (.ldB 1) := by decide
theorem test_decode_FX55 : decodeWord 0xF155#16 = .ok (.ldMemI 1) := by decide
theorem test_decode_FX65 : decodeWord 0xF165#16 = .ok (.ldVxMemI 1) := by decide

/-- One word of each class of R88, rejected by its name. -/
theorem test_decode_illegal :
    decodeWord 0x0000#16 = .error (.zeroFamily 0x0000#16) ∧ decodeWord 0x5121#16 = .error (.fiveFamily 0x5121#16) ∧
    decodeWord 0x8017#16 = .error (.eightFamily 0x8017#16) ∧ decodeWord 0x9121#16 = .error (.nineFamily 0x9121#16) ∧
    decodeWord 0xB123#16 = .error (.bFamily 0xB123#16) ∧ decodeWord 0xE000#16 = .error (.eFamily 0xE000#16) ∧
    decodeWord 0xF000#16 = .error (.fFamily 0xF000#16) ∧ decode [0x12] = .error .truncated := by decide

/-- Two bytes are one word, the first the high byte; the rest is left (R52, R80). -/
theorem test_decode_bytes : decode [0x12, 0x34, 0x56] = .ok (.jp 0x234#12, [0x56]) := by decide
theorem test_encode_bytes : encodeBytes (.drw 0xF 1 2#4) = [0xDF, 0x12] := by decide
theorem test_decodeTableWord : decodeTableWord 16 0xD125 = some (.drw 1 2 5#4) ∧ decodeTableWord 16 0xB000 = none := by
  decide
theorem test_withFetchWord : (State.reset.withFetchWord 16 0x1234).fetchWord = 0x1234#16 := by decide

/-- The codes of 60_exceptions R220. -/
theorem test_fault_codes : FaultKind.decodeFault.code = 1 ∧ FaultKind.stackOverflow.code = 2 ∧
    FaultKind.stackUnderflow.code = 3 ∧ FaultKind.keyIndexFault.code = 4 ∧ FaultKind.loadOverflow.code = 5 := by decide

/-- The optional second register of a shift (R90). -/
theorem test_assemble_shift : assemble ⟨.shr, [.v 0xA]⟩ = some 0x8A06#16 ∧
    assemble ⟨.shl, [.v 0xA, .v 0xB]⟩ = some 0x8ABE#16 ∧ assemble ⟨.dw, [.num 0x0123]⟩ = some 0x0123#16 := by decide

/-! ### One step of each instruction, from the vectors of 95_test_vectors -/

/-- T2. -/
theorem test_T2_cls : after 0x00E0 (dot 63 31 ∘ dot 10 5)
    (fun t => (t.fb.pixel 63 31, t.fb.pixel 10 5, t.redraw, t.pc)) = some (false, false, true, 0x202#16) := by decide
/-- T3. -/
theorem test_T3_drw : after 0xD011 (sprite 0 0 [0xC0]) (fun t => (t.fb.pixel 0 0, t.fb.pixel 1 0, t.fb.pixel 2 0, t.reg 15)) =
    some (true, true, false, 0) := by decide
/-- T5. -/
theorem test_T5_drw_collision : after 0xD011 (dot 0 0 ∘ sprite 0 0 [0xC0])
    (fun t => (t.fb.pixel 0 0, t.fb.pixel 1 0, t.reg 15)) = some (false, true, 1) := by decide
/-- T13. -/
theorem test_T13_ret : after 0x00EE (fun s => { s with sp := 1, stack := s.stack.set 0 0x206#16 })
    (fun t => (t.pc, t.sp, t.stack[0])) = some (0x206#16, 0, 0x206#16) := by decide
/-- T14. -/
theorem test_T14_ret_underflow : after 0x00EE id (fun t => (t.fault, t.pc)) =
    some (some ⟨.stackUnderflow, 0x00EE#16, 0x200#16⟩, 0x200#16) := by decide
/-- T15. -/
theorem test_T15_jp : after 0x1234 id (fun t => t.pc) = some 0x234#16 := by decide
/-- T18. -/
theorem test_T18_call : after 0x220A (depth 15) (fun t => (t.pc, t.sp, t.stack[15])) =
    some (0x20A#16, 16, 0x202#16) := by decide
/-- T19. -/
theorem test_T19_call_overflow : after 0x220A (depth 16) (fun t => (t.fault, t.sp, t.pc)) =
    some (some ⟨.stackOverflow, 0x220A#16, 0x200#16⟩, 16, 0x200#16) := by decide
/-- T20. -/
theorem test_T20_seImm : after 0x3310 (regs 3 0x10 0 0) (fun t => t.pc) = some 0x204#16 := by decide
/-- T30. -/
theorem test_T30_seImm_high : seen (step (State.withFetchWord { State.reset with pc := 0xFFE#16 } 16 0x3000))
    (fun t => t.pc) = some 0x1002#16 := by decide
/-- T22. -/
theorem test_T22_sneImm : after 0x4310 (regs 3 0x11 0 0) (fun t => t.pc) = some 0x204#16 := by decide
/-- T24. -/
theorem test_T24_seReg : after 0x5120 (regs 1 7 2 7) (fun t => t.pc) = some 0x204#16 := by decide
/-- T27. -/
theorem test_T27_sneReg : after 0x9120 (regs 1 7 2 7) (fun t => t.pc) = some 0x202#16 := by decide
/-- T31. -/
theorem test_T31_ldImm : after 0x6A2B id (fun t => t.reg 10) = some 0x2B := by decide
/-- T33. -/
theorem test_T33_addImm : after 0x71FF (regs 1 5 15 0x77) (fun t => (t.reg 1, t.reg 15)) = some (4, 0x77) := by decide
/-- T35. -/
theorem test_T35_ldReg : after 0x8120 (regs 2 0x99 1 0) (fun t => t.reg 1) = some 0x99 := by decide
/-- T36. -/
theorem test_T36_or : after 0x8011 (regs 0 0x0F 1 0xF0 ∘ regs 15 0x55 2 0) (fun t => (t.reg 0, t.reg 15)) =
    some (0xFF, 0x55) := by decide
/-- T37. -/
theorem test_T37_and : after 0x8012 (regs 0 0x3C 1 0x0F) (fun t => t.reg 0) = some 0x0C := by decide
/-- T38. -/
theorem test_T38_xor : after 0x8013 (regs 0 0x3C 1 0x0F) (fun t => t.reg 0) = some 0x33 := by decide
/-- T39. -/
theorem test_T39_addReg : after 0x8014 (regs 0 0xFF 1 1) (fun t => (t.reg 0, t.reg 15)) = some (0, 1) := by decide
/-- T43. -/
theorem test_T43_addReg_vf : after 0x8F14 (regs 15 0xFF 1 1) (fun t => t.reg 15) = some 2 := by decide
/-- T45. -/
theorem test_T45_sub : after 0x8015 (regs 0 3 1 5) (fun t => (t.reg 0, t.reg 15)) = some (0xFE, 0) := by decide
/-- T48. -/
theorem test_T48_sub_vf : after 0x80F5 (regs 0 5 15 3) (fun t => (t.reg 0, t.reg 15)) = some (4, 1) := by decide
/-- T49. -/
theorem test_T49_shr : after 0x8006 (regs 0 5 1 0) (fun t => (t.reg 0, t.reg 15)) = some (2, 1) := by decide
/-- T50. -/
theorem test_T50_shr_y : after 0x8016 (regs 0 4 1 0xFF) (fun t => (t.reg 0, t.reg 15)) = some (2, 0) := by decide
/-- T52. -/
theorem test_T52_shl : after 0x800E (regs 0 0x81 1 0) (fun t => (t.reg 0, t.reg 15)) = some (2, 0x80) := by decide
/-- T53. -/
theorem test_T53_shl_y : after 0x801E (regs 0 0x40 1 0xFF) (fun t => (t.reg 0, t.reg 15)) = some (0x80, 0) := by decide
/-- T60: nothing but the mask is known of the free byte. -/
theorem test_T60_rnd : after 0xC300 (regs 3 0x99 0 0) (fun t => t.reg 3) = some (Config.rand8 0 &&& 0x00) := rfl
/-- T61. -/
theorem test_T61_ldI : after 0xA300 id (fun t => t.i) = some 0x300#16 := by decide
/-- T64. -/
theorem test_T64_addI : after 0xF01E (fun s => (s.setReg 0 1).setI 0xFFFF#16) (fun t => t.i) = some 0#16 := by decide
/-- T66. -/
theorem test_T66_ldF : after 0xF029 (regs 0 0x10 1 0) (fun t => t.i) = some 0x50#16 := by decide
/-- T69. -/
theorem test_T69_ldB : after 0xF533 (fun s => (s.setReg 5 0xFF).setI 0x300#16)
    (fun t => [t.byteAt 0x300, t.byteAt 0x301, t.byteAt 0x302]) = some [2, 5, 5] := by decide
/-- T77. -/
theorem test_T77_ldMemI : after 0xF255 (fun s => ((regs 0 0x11 1 0x22 s).setReg 2 0x33).setI 0xFFE#16)
    (fun t => [t.byteAt 0xFFE, t.byteAt 0xFFF, t.byteAt 0]) = some [0x11, 0x22, 0x33] := by decide
/-- T78. -/
theorem test_T78_ldVxMemI : after 0xF165 (fun s => (s.storeByte 0x1FF 0x77).setI 0x1FF#16)
    (fun t => (t.reg 0, t.reg 1, t.i)) = some (0x77, 0xF1, 0x201#16) := by decide
/-- T79. -/
theorem test_T79_skp : after 0xE29E (fun s => (s.setReg 2 5).setKey 5 true) (fun t => t.pc) = some 0x204#16 := by decide
/-- T83. -/
theorem test_T83_skp_fault : after 0xE29E (fun s => (s.setReg 2 0x10).setKey 0 true) (fun t => t.fault) =
    some (some ⟨.keyIndexFault, 0xE29E#16, 0x200#16⟩) := by decide
/-- T81. -/
theorem test_T81_sknp : after 0xE2A1 (regs 2 5 0 0) (fun t => t.pc) = some 0x204#16 := by decide
/-- T84. -/
theorem test_T84_sknp_fault : after 0xE2A1 (regs 2 0xFF 0 0) (fun t => t.fault) =
    some (some ⟨.keyIndexFault, 0xE2A1#16, 0x200#16⟩) := by decide
/-- T85. -/
theorem test_T85_ldVxDt : after 0xF407 (fun s => { s with dt := 0x3C }) (fun t => t.reg 4) = some 0x3C := by decide
/-- T86. -/
theorem test_T86_ldVxK_wait : after 0xF30A id (fun t => (t.pc, t.reg 3)) = some (0x200#16, 0) := by decide
/-- T88. -/
theorem test_T88_ldVxK : after 0xF30A (fun s => (s.setKey 9 true).setKey 3 true) (fun t => (t.reg 3, t.pc)) =
    some (9, 0x202#16) := by decide
/-- T89. -/
theorem test_T89_ldDtVx : after 0xF115 (regs 1 0x3C 0 0) (fun t => (t.dt, t.st)) = some (0x3C, 0) := by decide
/-- T90. -/
theorem test_T90_ldStVx : after 0xF118 (regs 1 5 0 0) (fun t => (t.st, t.dt)) = some (5, 0) := by decide
/-- T92, the first step of a core with no program (70_reset R273). -/
theorem test_T92_reset_step : seen (step State.reset) (fun t => (t.fault, t.pc)) =
    some (some ⟨.decodeFault, 0#16, 0x200#16⟩, 0x200#16) := by decide
/-- T100 and T104: both timers go to 0, with a tone stop. -/
theorem test_T100_tick : ({ State.reset with dt := 1, st := 1 } : State).advanceTimers.2 = true ∧
    ({ State.reset with dt := 1, st := 1 } : State).advanceTimers.1.dt = 0 := by decide
/-- T99: nothing goes below 0, and no tone stop. -/
theorem test_T99_tick : State.reset.advanceTimers = (State.reset, false) := rfl

/-! ### Witnesses: for each statement with hypotheses or clauses, a state that meets them, each clause at a boundary -/

/-- A core halted by the StackUnderflow of a first RET. -/
def halted : State := { State.reset.withFetchWord 16 0x00EE with fault := some ⟨.stackUnderflow, 0x00EE#16, 0x200#16⟩ }

theorem loaded_inv : (loaded 0x1200 id).Inv := by
  refine ⟨by decide, fun r h => ?_⟩
  cases h

theorem halted_inv : halted.Inv := by
  refine ⟨by decide, fun r h => ?_⟩
  cases h
  exact ⟨rfl, rfl, rfl⟩

/-- Memory's boundary cells: the last font byte, the first byte above it, the last byte. -/
theorem witness_ResetHoldsTheSpecValues : State.reset.byteAt 79 = State.reset.font[79] ∧ State.reset.byteAt 80 = 0 ∧
    State.reset.byteAt 4095 = 0 := by decide

theorem witness_StepKeepsTheInvariant : ∃ s t, s.Inv ∧ step s = .next t :=
  ⟨_, _, loaded_inv, rfl⟩

theorem witness_HostRunsKeepTheInvariant : ∃ s t, s.Inv ∧
    transactAll s [.load [0x12], .keyPress 15, .keyRelease 0, .step, .advanceTimers, .ackRedraw] = .next t :=
  ⟨_, _, halted_inv, rfl⟩

theorem witness_StepOfARunningCoreAnswersNext : State.reset.fault = none := rfl

theorem witness_MemoriesThatReadAlikeAreEqual : ∃ m : Memory, m ≠ [] ∧ Memory.wf defaultFont m :=
  ⟨[(0, 1), (4095, 7)], by decide, by decide⟩

theorem witness_DecodeOfEncodeIsTheInstruction : (Instr.drw 15 15 0xF#4).wf = true ∧ (Instr.ldI 0xFFF#12).wf = true := by
  decide

theorem witness_EncodeOfDecodeIsTheWord : decodeWord 0xDFFF#16 = .ok (.drw 15 15 0xF#4) := by decide

theorem witness_DecodeFollowsTheOpcodeMap : decodeWord 0x5FF0#16 = .ok (.seReg 15 15) ∧
    (⟨"SE__reg", 0xF00F#16, 0x5000#16⟩ : OpcodeRow) ∈ opcodeTable ∧ 0x5FF0#16 &&& 0xF00F#16 = 0x5000#16 := by decide

theorem witness_OperandsComeFromTheirFields : operandsAreDigitsOf 0xD12F (.drw 1 2 0xF#4) ∧
    decodeWord 0xD12F#16 = .ok (.drw 1 2 0xF#4) := ⟨⟨rfl, rfl, rfl⟩, by decide⟩

/-- A fetched word of each class, at the ends of the ranges, and a legal word beside them. -/
theorem witness_IllegalWordsTakeDecodeFault :
    ∀ w ∈ [0x0000, 0x00DF, 0x00EF, 0x0FFF, 0x5001, 0x5FFF, 0x9001, 0x8FF7, 0x800F, 0xB000, 0xBFFF, 0xE000, 0xEF9F,
      0xF000, 0xFFFF],
      (loaded w id).fault = none ∧ (loaded w id).fetchWord.toNat = w ∧
        (seen (step (loaded w id)) State.fault).bind (Option.map FaultRecord.kind) = some .decodeFault := by decide

theorem witness_legal_word : (seen (step (loaded 0x00E0 id)) State.fault) = some none := by decide

theorem witness_AssemblerRefusesNumbersOutOfRange : assemble ⟨.jp, [.num 0x1000]⟩ = none ∧
    assemble ⟨.jp, [.num 0xFFF]⟩ = some 0x1FFF#16 ∧ assemble ⟨.rnd, [.v 0, .num 0x100]⟩ = none ∧
    assemble ⟨.rnd, [.v 0, .num 0xFF]⟩ = some 0xC0FF#16 ∧ assemble ⟨.drw, [.v 0, .v 0, .num 0x10]⟩ = none ∧
    assemble ⟨.drw, [.v 0, .v 0, .num 0xF]⟩ = some 0xD00F#16 := by decide

theorem witness_StepRunsTheDecodedInstruction : (loaded 0x6A2B id).fault = none ∧
    decode ((loaded 0x6A2B id).byteAt (loaded 0x6A2B id).pc.toNat ::
      (loaded 0x6A2B id).byteAt ((loaded 0x6A2B id).pc.toNat + 1) :: []) = .ok (.ldImm 0xA 0x2B#8, []) := by decide

/-- The four kinds of fault a step takes, each at its boundary value, and the neighbours that take none. -/
theorem witness_AFaultingStepCommitsNothing :
    after 0xB000 id State.fault = some (some ⟨.decodeFault, 0xB000#16, 0x200#16⟩) ∧
    after 0x2000 (depth 16) State.fault = some (some ⟨.stackOverflow, 0x2000#16, 0x200#16⟩) ∧
    after 0x00EE (depth 0) State.fault = some (some ⟨.stackUnderflow, 0x00EE#16, 0x200#16⟩) ∧
    after 0xE09E (regs 0 16 1 0) State.fault = some (some ⟨.keyIndexFault, 0xE09E#16, 0x200#16⟩) ∧
    after 0xE0A1 (regs 0 16 1 0) State.fault = some (some ⟨.keyIndexFault, 0xE0A1#16, 0x200#16⟩) := by decide

theorem witness_EachFaultHasItsOwnCause : after 0x2000 (depth 15) State.fault = some none ∧
    after 0x00EE (depth 1) State.fault = some none ∧ after 0xE09E (regs 0 15 1 0) State.fault = some none ∧
    after 0xE0A1 (regs 0 15 1 0) State.fault = some none := by decide

theorem witness_AHaltedCoreStaysHalted : halted.fault = some ⟨.stackUnderflow, 0x00EE#16, 0x200#16⟩ ∧
    transact .ackRedraw halted = .next ({ halted with redraw := false }, .ok) := ⟨rfl, rfl⟩

/-- The four cases of `x`, `y` against 15. -/
theorem witness_AddSetsCarryThenSum :
    after 0x8014 (regs 0 0x80 1 0x80) (fun t => (t.reg 0, t.reg 15)) = some (0, 1) ∧
    after 0x8F04 (regs 15 0xFF 0 1) (fun t => t.reg 15) = some 2 ∧
    after 0x80F4 (regs 0 0x10 15 0x20) (fun t => (t.reg 0, t.reg 15)) = some (0x10, 0) ∧
    after 0x8FF4 (regs 15 0x80 0 0) (fun t => t.reg 15) = some 2 := by decide

theorem witness_SubSetsGreaterThenDifference :
    after 0x8015 (regs 0 5 1 5) (fun t => (t.reg 0, t.reg 15)) = some (0, 0) ∧
    after 0x8F05 (regs 15 5 0 3) (fun t => t.reg 15) = some 0xFE ∧
    after 0x80F5 (regs 0 5 15 3) (fun t => (t.reg 0, t.reg 15)) = some (4, 1) ∧
    after 0x8FF5 (regs 15 9 0 0) (fun t => t.reg 15) = some 0 := by decide

theorem witness_ShrSetsLowBitThenShifts : after 0x8E06 (regs 14 0xFF 0 0) (fun t => (t.reg 14, t.reg 15)) =
    some (0x7F, 1) ∧ after 0x8F06 (regs 15 3 0 0) (fun t => t.reg 15) = some 0 := by decide

theorem witness_ShlSetsHighBitThenShifts : after 0x8E0E (regs 14 0x7F 0 0) (fun t => (t.reg 14, t.reg 15)) =
    some (0xFE, 0) ∧ after 0x8F0E (regs 15 0xC0 0 0) (fun t => t.reg 15) = some 0 := by decide

theorem witness_RndMasksOneFreeByte : after 0xC000 id (fun t => (t.reg 0, t.draws)) =
    some (Config.rand8 0 &&& 0x00, 1) := rfl

theorem witness_OnlyRndUsesTheRandomSource : (∀ x nn, Instr.cls ≠ .rnd x nn) ∧
    ∃ t, exec .cls State.reset = .next t := ⟨fun _ _ => Instr.noConfusion, _, rfl⟩

/-- In every state: FX55 with `x = 15`, then `I` set back. -/
theorem witness_StoreThenLoadGivesTheRegistersBack (s : State) : ∃ t u, exec (.ldMemI 15) s = .next t ∧
    SameMemory t u ∧ u.i = s.i :=
  ⟨_, ((s.storeBytes (s.dataAddr 0) (s.lowRegs 15)).setI (s.postIncI 15)).setI s.i, rfl, fun _ => rfl, rfl⟩

/-- In every state `s`, each of the three stores answers; a fetch at the store's first address meets the premises. -/
theorem witness_AStoreIsSeenByTheNextFetch (s : State) :
    (∃ t u, exec (.ldMemI 0) s = .next t ∧ SameMemory t u ∧ memIndex u.pc.toNat = memIndex (s.i.toNat + 0)) ∧
    (∃ t u, exec (.ldMemI 1) s = .next t ∧ SameMemory t u ∧ memIndex u.pc.toNat = memIndex s.i.toNat) ∧
    (∃ t u, exec (.ldB 15) s = .next t ∧ SameMemory t u ∧ memIndex u.pc.toNat = memIndex s.i.toNat) ∧
    (∃ t u, transact (.load [0x12]) s = .next (t, .ok) ∧ SameMemory t u ∧ memIndex u.pc.toNat = memIndex (0x200 + 0)) :=
  ⟨⟨_, ((s.storeBytes (s.dataAddr 0) (s.lowRegs 0)).setI (s.postIncI 0)).setPc s.i, rfl, fun _ => rfl, rfl⟩,
   ⟨_, ((s.storeBytes (s.dataAddr 0) (s.lowRegs 1)).setI (s.postIncI 1)).setPc s.i, rfl, fun _ => rfl, rfl⟩,
   ⟨_, (s.storeBytes (s.dataAddr 0) (decimalDigits (s.reg 15))).setPc s.i, rfl, fun _ => rfl, rfl⟩,
   ⟨_, (s.storeBytes 0x200 [0x12]).setPc 0x200#16, rfl, fun _ => rfl, rfl⟩⟩

/-- The edges: FX55 with `x = 0` at 0xFFF seen as a high byte, and the first and last byte of FX33 and `load` as low
bytes. -/
theorem witness_AStoreIsSeen_edges :
    (after 0xF055 (fun s => (s.setReg 0 0xAB).setI 0xFFF#16) fun t => (t.setPc 0xFFF#16).fetchWord) =
      some 0xABF0#16 ∧
    (after 0xF033 (fun s => (s.setReg 0 0xFF).setI 0xFFE#16) fun t => (t.setPc 0xFFF#16).fetchWord) =
      some 0x0505#16 ∧
    (((State.reset.load [0x12, 0x34]).1.setPc 0x200#16).fetchWord = 0x1234#16) := by decide

/-- The bottom right corner: one pixel drawn, nothing left of or above it. -/
theorem witness_DrwClipsAtTheEdges : after 0xD012 (sprite 63 31 [0xFF, 0xFF])
    (fun t => (t.fb.pixel 63 31, t.fb.pixel 62 31, t.fb.pixel 63 30, t.fb.pixel 0 0, t.reg 15)) =
    some (true, false, false, false, 0) := by decide

theorem witness_DrwDrawsTheSprite : after 0xD011 (dot 63 0 ∘ sprite 62 0 [0x40])
    (fun t => (t.fb.pixel 63 0, t.reg 15)) = some (false, 1) := by decide

theorem witness_DrawingTwiceRestores : ∃ s t u w, exec (.drw 0 1 1#4) s = .next t ∧ u.fb = t.fb ∧ SameMemory s u ∧
    u.i = s.i ∧ u.reg 0 = s.reg 0 ∧ u.reg 1 = s.reg 1 ∧ exec (.drw 0 1 1#4) u = .next w :=
  ⟨State.reset, _, State.drawSprite State.reset 0 1 1, _, rfl, rfl, fun _ => rfl, rfl, by decide, by decide, rfl⟩

theorem witness_EveryDrawSetsRedraw : after 0xD010 (sprite 0 0 [0xFF] ∘ regs 15 1 2 0)
    (fun t => (t.redraw, t.fb.pixel 0 0, t.reg 15)) = some (true, false, 0) := by decide

theorem witness_CallPushesOrOverflows : (depth 15 State.reset).sp.val < 16 ∧ (depth 16 State.reset).sp.val = 16 := by
  decide

theorem witness_RetPopsOrUnderflows : (depth 16 State.reset).sp.val = (15 : Fin 16).val + 1 ∧
    (depth 1 State.reset).sp.val = (0 : Fin 16).val + 1 ∧ (depth 0 State.reset).sp.val = 0 := by decide

theorem witness_ReturnComesBackAfterTheCall : ∃ s t, s.sp.val = 15 ∧ exec (.call 0xFFF#12) s = .next t :=
  ⟨depth 15 State.reset, _, rfl, rfl⟩

/-- Each skip taken and not taken. -/
theorem witness_RegisterSkips :
    after 0x3FFF (regs 15 0xFF 0 0) State.pc = some 0x204#16 ∧ after 0x3FFF (regs 15 0xFE 0 0) State.pc = some 0x202#16 ∧
    after 0x4FFF (regs 15 0xFE 0 0) State.pc = some 0x204#16 ∧ after 0x4FFF (regs 15 0xFF 0 0) State.pc = some 0x202#16 ∧
    after 0x5FE0 (regs 15 7 14 7) State.pc = some 0x204#16 ∧ after 0x5FE0 (regs 15 7 14 8) State.pc = some 0x202#16 ∧
    after 0x9FE0 (regs 15 7 14 8) State.pc = some 0x204#16 ∧ after 0x9FE0 (regs 15 7 14 7) State.pc = some 0x202#16 := by
  decide

/-- Keys 0 and 15, and the first value that names no key. -/
theorem witness_KeySkipsOrKeyIndexFault :
    after 0xE09E (fun s => (s.setReg 0 15).setKey 15 true) State.pc = some 0x204#16 ∧
    after 0xE0A1 (fun s => (s.setReg 0 15).setKey 15 true) State.pc = some 0x202#16 ∧
    after 0xE0A1 (regs 0 0 1 0) State.pc = some 0x204#16 ∧ ((regs 0 16 1 0 State.reset).reg 0).toNat > 15 := by decide

theorem witness_WaitKeyTakesTheHighestKey : (State.reset.setKey 15 true).keyDown 15 = true ∧
    (∀ j, 15 < j → (State.reset.setKey 15 true).keyDown j = false) ∧
    (State.reset.setKey 0 true).keyDown 0 = true ∧ (∀ j, 0 < j → (State.reset.setKey 0 true).keyDown j = false) ∧
    (∀ k, State.reset.keyDown k = false) := by decide

theorem witness_WaitKeyWithNoKeyIsAStandstill : (loaded 0xF30A id).fault = none ∧
    decodeWord (loaded 0xF30A id).fetchWord = .ok (.ldVxK 3) ∧ (∀ k, (loaded 0xF30A id).keyDown k = false) := by decide

theorem witness_OnlyCallAndRetChangeTheStack : ∃ t, exec (.jp 0#12) State.reset = .next t := ⟨_, rfl⟩

theorem witness_DisplayMemoryAndTimersHaveTheirWriters : ∃ t, exec (.ldImm 0 1) State.reset = .next t := ⟨_, rfl⟩

theorem witness_NoInstructionWritesTheKeypad : ∃ t, exec (.skp 0) State.reset = .next t := ⟨_, rfl⟩

/-- A change of `VF` as a flag, as an immediate's destination, as a copy's, and by FX65. -/
theorem witness_OnlyFlagInstructionsAndNamedWritesChangeVF :
    after 0x8014 (regs 0 0xFF 1 1) (fun t => t.reg 15) = some 1 ∧ after 0x6F07 id (fun t => t.reg 15) = some 7 ∧
    after 0x8F00 (regs 0 9 1 0) (fun t => t.reg 15) = some 9 ∧ after 0xFF65 id (fun t => t.reg 15) = some 0xF0 := by
  decide

/-- Each of the five ways `PC` goes, the skips and FX0A on both sides of their condition. -/
theorem witness_PcAfterAStep : after 0x1FFF id State.pc = some 0xFFF#16 ∧ after 0x2FFF id State.pc = some 0xFFF#16 ∧
    after 0x00EE (depth 16) State.pc = some 0#16 ∧ after 0x3000 id State.pc = some 0x204#16 ∧
    after 0x4000 id State.pc = some 0x202#16 ∧ after 0xE09E (·.setKey 0 true) State.pc = some 0x204#16 ∧
    after 0xE0A1 (·.setKey 0 true) State.pc = some 0x202#16 ∧ after 0xF00A id State.pc = some 0x200#16 ∧
    after 0xF00A (·.setKey 0 true) State.pc = some 0x202#16 ∧ after 0x00E0 id State.pc = some 0x202#16 := by decide

theorem witness_TickCountsBothTimersDown : ({ State.reset with st := 1 } : State).advanceTimers.2 = true ∧
    ({ State.reset with st := 2 } : State).advanceTimers.2 = false := by decide

/-- The longest image and the shortest that is too long. -/
theorem witness_LoadCopiesOrRejects : (List.replicate 3584 (0x12 : Byte)).length ≤ 3584 ∧
    (List.replicate 3585 (0x12 : Byte)).length > 3584 := by
  rw [List.length_replicate, List.length_replicate]; decide

theorem witness_KeySettersWriteOneKey : State.reset.keySetter 15 true ≠ none ∧ State.reset.keySetter 16 true = none := by
  decide

/-- A stop end at 0x200 and one at the last address below 0x1000; a step that faults and one that does not. -/
theorem witness_AStopEndIsFinal : (loaded 0x1200 id).stopEnd ∧
    (State.withFetchWord { State.reset with pc := 0xFFF#16 } 16 0x1FFF).stopEnd ∧
    after 0x0000 id State.stepReply = some (.stepFault ⟨.decodeFault, 0#16, 0x200#16⟩) ∧
    after 0x00E0 id State.stepReply = some .ok := by
  refine ⟨⟨rfl, by decide, by decide⟩, ⟨rfl, by decide, by decide⟩, by decide, by decide⟩

end Sys2Proof.Tests
end

section
/-! SUPPORT. One step of a running core: what `decode` says of two bytes, and the step of a decodable word. -/

namespace Sys2Proof.Machine

/-- Two bytes decode to what their big-endian word decodes to, and the bytes after them are left (R52, R80). -/
theorem decode_cons_cons_eq_ok {hi lo : Byte} {rest : List Byte} {i : Instr} :
    decode (hi :: lo :: rest) = .ok (i, rest) ↔ decodeWord (wordOfBytes hi lo) = .ok i := by
  rw [decode]
  cases decodeWord (wordOfBytes hi lo) <;> simp [Except.map]

/-- A running core that fetches a legal word runs its instruction on the state after the fetch (R82, R83). -/
theorem step_of_decodeWord_eq_ok {s : State} {i : Instr} (hf : s.fault = none)
    (hi : decodeWord s.fetchWord = .ok i) : step s = exec i s.advancePc := by
  simp only [step, hf, hi]

/-- Settles O16: the two bytes at `PC` make the fetched word, so what they decode to is what the step runs. -/
theorem stepRunsTheDecodedInstruction : Obligations.StepRunsTheDecodedInstruction := by
  intro s i rest hf hd
  have hi : decodeWord s.fetchWord = .ok i := decode_cons_cons_eq_ok.mp hd
  exact step_of_decodeWord_eq_ok hf hi

end Sys2Proof.Machine
end

section
/-! SUPPORT. Canonical memory is decided by what it reads: the cells are the reads that differ from the reset contents,
and a rising list is decided by its cells. -/

namespace Sys2Proof.Machine

/-- In canonical form the listed cells are the indices of `MEM` that read otherwise than at reset. -/
theorem Memory.wf.mem_iff {font : Vector Byte 80} {m : Memory} (h : Memory.wf font m) (c : Host.Cell) :
    c ∈ m ↔ c.1 < 4096 ∧ c.2 ≠ Memory.unlisted font c.1 ∧ Memory.read font m c.1 = c.2 := by
  obtain ⟨hrising, hcells⟩ := h
  constructor
  · intro hc
    obtain ⟨hlt, hne⟩ := hcells c hc
    exact ⟨hlt, hne, by simp [Memory.read, Memory.listed_of_mem hrising hc]⟩
  · rintro ⟨-, hne, hread⟩
    cases hl : m.listed c.1 with
    | none => exact absurd (by simpa [Memory.read, hl] using hread.symm) hne
    | some b =>
      have hb : b = c.2 := by simpa [Memory.read, hl] using hread
      exact Memory.mem_of_listed (hb ▸ hl)

/-- Two rising lists with the same cells are the same list. -/
theorem Memory.eq_of_rising_of_mem_iff {m m' : Memory} (h : m.Pairwise (fun c d => c.1 < d.1))
    (h' : m'.Pairwise (fun c d => c.1 < d.1)) (hmem : ∀ c, c ∈ m ↔ c ∈ m') : m = m' := by
  have : Std.Irrefl (fun c d : Host.Cell => c.1 < d.1) := ⟨fun c => Nat.lt_irrefl c.1⟩
  have : Std.Antisymm (fun c d : Host.Cell => c.1 < d.1) := ⟨fun _ _ hcd hdc => absurd hdc (Nat.lt_asymm hcd)⟩
  exact h.eq_of_mem_iff h' hmem

/-- Settles O6: the cells of a canonical memory are decided by its reads, and they decide the list. -/
theorem memoriesThatReadAlikeAreEqual : Obligations.MemoriesThatReadAlikeAreEqual := by
  intro font m m' h h' hread
  refine Memory.eq_of_rising_of_mem_iff h.1 h'.1 fun c => ?_
  rw [h.mem_iff, h'.mem_iff]
  exact and_congr_right fun hlt => by rw [hread c.1 hlt]

end Sys2Proof.Machine
end

section
/-! SUPPORT. What an instruction can do to the state, said once for all 32: the effect of each group of instructions as
an update of the state after the fetch. The statements on which instruction writes what read it off. -/

namespace Sys2Proof.Machine

variable {s t : State} {i : Instr}

/-- The skips (R123 to R126, R190, R191). -/
inductive IsSkip : Instr → Prop
  | seImm (x : RegIdx) (nn : Byte) : IsSkip (.seImm x nn)
  | sneImm (x : RegIdx) (nn : Byte) : IsSkip (.sneImm x nn)
  | seReg (x y : RegIdx) : IsSkip (.seReg x y)
  | sneReg (x y : RegIdx) : IsSkip (.sneReg x y)
  | skp (x : RegIdx) : IsSkip (.skp x)
  | sknp (x : RegIdx) : IsSkip (.sknp x)

/-- The instructions that write `V[x]` and nothing else in every state (R141 to R146, R192). -/
inductive WritesReg (x : RegIdx) : Instr → Prop
  | ldImm (nn : Byte) : WritesReg x (.ldImm x nn)
  | addImm (nn : Byte) : WritesReg x (.addImm x nn)
  | ldReg (y : RegIdx) : WritesReg x (.ldReg x y)
  | or (y : RegIdx) : WritesReg x (.or x y)
  | and (y : RegIdx) : WritesReg x (.and x y)
  | xor (y : RegIdx) : WritesReg x (.xor x y)
  | ldVxDt : WritesReg x (.ldVxDt x)

/-- The arithmetic instructions that write a flag before their result (R140, R147 to R150). -/
inductive WritesFlag (x : RegIdx) : Instr → Prop
  | addReg (y : RegIdx) : WritesFlag x (.addReg x y)
  | sub (y : RegIdx) : WritesFlag x (.sub x y)
  | shr (y : RegIdx) : WritesFlag x (.shr x y)
  | shl (y : RegIdx) : WritesFlag x (.shl x y)

/-- The instructions that write `I` and nothing else (R170 to R172). -/
inductive WritesI : Instr → Prop
  | ldI (nnn : Addr12) : WritesI (.ldI nnn)
  | addI (x : RegIdx) : WritesI (.addI x)
  | ldF (x : RegIdx) : WritesI (.ldF x)

/-- `Effect s i t`: `t` is a state that instruction `i` can make of `s`, up to the values it computes. -/
inductive Effect (s : State) : Instr → State → Prop
  | fault {i : Instr} {kind : FaultKind} (h : takesFault s i kind) : Effect s i (s.takeFault kind (encode i))
  | ret (k : Fin 16) (h : s.sp.val = k.val + 1) :
      Effect s .ret (State.setPc { s with sp := k.castSucc } (s.stack.get k))
  | jp (nnn : Addr12) : Effect s (.jp nnn) (s.setPc (zext16Addr nnn))
  | call (nnn : Addr12) (h : s.sp.val < 16) :
      Effect s (.call nnn) (State.setPc
        { s with stack := s.stack.set s.sp.val s.pc h, sp := ⟨s.sp.val + 1, Nat.succ_lt_succ h⟩ } (zext16Addr nnn))
  | skip {i : Instr} (c : Bool) (hi : IsSkip i) (hc : c = true ↔ skipTaken s i) : Effect s i (s.skipIf c)
  | waitKey (x : RegIdx) (h : ∀ k, s.keyDown k = false) : Effect s (.ldVxK x) s.rewindPc
  | takeKey (x : RegIdx) (b : Byte) {k : Fin 16} (h : s.keyDown k = true) : Effect s (.ldVxK x) (s.setReg x b)
  | reg {i : Instr} {x : RegIdx} (b : Byte) (hi : WritesReg x i) : Effect s i (s.setReg x b)
  | rnd (x : RegIdx) (nn b : Byte) : Effect s (.rnd x nn) (s.rand8.2.setReg x b)
  | flag {i : Instr} {x : RegIdx} (g : Byte) (f : State → Byte) (hi : WritesFlag x i) :
      Effect s i (s.flagThenResult g x f)
  | index {i : Instr} (w : Word) (hi : WritesI i) : Effect s i (s.setI w)
  | storeDigits (x : RegIdx) (a : Nat) (bs : List Byte) : Effect s (.ldB x) (s.storeBytes a bs)
  | storeRegs (x : RegIdx) (a : Nat) (bs : List Byte) (w : Word) : Effect s (.ldMemI x) ((s.storeBytes a bs).setI w)
  | loadRegs (x : RegIdx) (a : Nat) (w : Word) : Effect s (.ldVxMemI x) ((s.loadRegs a (regCount x)).setI w)
  | cls : Effect s .cls { s with fb := Framebuffer.clear, redraw := true }
  | drw (x y : RegIdx) (n : Nibble) : Effect s (.drw x y n) (s.drawSprite x y n.toNat)
  | delayTimer (x : RegIdx) (b : Byte) : Effect s (.ldDtVx x) { s with dt := b }
  | soundTimer (x : RegIdx) (b : Byte) : Effect s (.ldStVx x) { s with st := b }

/-! ### The instructions whose effect depends on the state -/

theorem execRet_effect (h : execRet s = .next t) : Effect s .ret t := by
  simp only [execRet] at h
  split at h
  · next hp => cases h; exact .fault (kind := .stackUnderflow) (s.pop_eq_none.1 hp)
  · next target u hp =>
    cases h
    obtain ⟨k, hk, hsp, rfl, rfl⟩ := s.pop_eq_some.1 hp
    exact .ret ⟨k, hk⟩ hsp

theorem execCall_effect {nnn : Addr12} (h : execCall nnn s = .next t) : Effect s (.call nnn) t := by
  simp only [execCall] at h
  split at h
  · next hp => cases h; exact .fault (kind := .stackOverflow) (s.push_eq_none.1 hp)
  · next u hp =>
    cases h
    obtain ⟨hsp, rfl⟩ := s.push_eq_some.1 hp
    exact .call nnn hsp

/-- A property of the key `V[x]` names is one of key `k` when `V[x]` is `k` (R196). -/
theorem exists_key_iff {b : Byte} {k : Fin 16} (hk : keyOperand b = some k) (p : Fin 16 → Prop) :
    (∃ j : Fin 16, b.toNat = j.val ∧ p j) ↔ p k := by
  simp [keyOperand_eq_some.1 hk, ← Fin.ext_iff]

theorem execSkp_effect {x : RegIdx} (h : execSkp x s = .next t) : Effect s (.skp x) t := by
  simp only [execSkp] at h
  split at h
  · next hk => cases h; exact .fault (kind := .keyIndexFault) (keyOperand_eq_none.1 hk)
  · next k hk => cases h; exact .skip _ (.skp x) (exists_key_iff hk (s.keyDown · = true)).symm

theorem execSknp_effect {x : RegIdx} (h : execSknp x s = .next t) : Effect s (.sknp x) t := by
  simp only [execSknp] at h
  split at h
  · next hk => cases h; exact .fault (kind := .keyIndexFault) (keyOperand_eq_none.1 hk)
  · next k hk =>
    cases h
    refine .skip _ (.sknp x) ?_
    rw [Bool.not_eq_true']
    exact (exists_key_iff hk (s.keyDown · = false)).symm

theorem execLdVxK_effect {x : RegIdx} (h : execLdVxK x s = .next t) : Effect s (.ldVxK x) t := by
  simp only [execLdVxK] at h
  split at h
  · next hk => cases h; exact .waitKey x (s.highestKey_eq_none.1 hk)
  · next k hk => cases h; exact .takeKey x _ (s.highestKey_eq_some.1 hk).1

/-! ### Every instruction -/

/-- Whatever an instruction answers is one of its effects. -/
theorem exec_effect (h : exec i s = .next t) : Effect s i t := by
  cases i with
  | ret => exact execRet_effect h
  | call nnn => exact execCall_effect h
  | skp x => exact execSkp_effect h
  | sknp x => exact execSknp_effect h
  | ldVxK x => exact execLdVxK_effect h
  | jp nnn => cases h; exact .jp nnn
  | seImm x nn => cases h; exact .skip _ (.seImm x nn) beq_iff_eq
  | sneImm x nn => cases h; exact .skip _ (.sneImm x nn) bne_iff_ne
  | seReg x y => cases h; exact .skip _ (.seReg x y) beq_iff_eq
  | sneReg x y => cases h; exact .skip _ (.sneReg x y) bne_iff_ne
  | ldImm x nn => cases h; exact .reg _ (.ldImm nn)
  | addImm x nn => cases h; exact .reg _ (.addImm nn)
  | ldReg x y => cases h; exact .reg _ (.ldReg y)
  | or x y => cases h; exact .reg _ (.or y)
  | and x y => cases h; exact .reg _ (.and y)
  | xor x y => cases h; exact .reg _ (.xor y)
  | ldVxDt x => cases h; exact .reg _ .ldVxDt
  | rnd x nn => cases h; exact .rnd x nn _
  | addReg x y => cases h; exact .flag _ _ (.addReg y)
  | sub x y => cases h; exact .flag _ _ (.sub y)
  | shr x y => cases h; exact .flag _ _ (.shr y)
  | shl x y => cases h; exact .flag _ _ (.shl y)
  | ldI nnn => cases h; exact .index _ (.ldI nnn)
  | addI x => cases h; exact .index _ (.addI x)
  | ldF x => cases h; exact .index _ (.ldF x)
  | ldB x => cases h; exact .storeDigits x _ _
  | ldMemI x => cases h; exact .storeRegs x _ _ _
  | ldVxMemI x => cases h; exact .loadRegs x _ _
  | cls => cases h; exact .cls
  | drw x y n => cases h; exact .drw x y n
  | ldDtVx x => cases h; exact .delayTimer x _
  | ldStVx x => cases h; exact .soundTimer x _

end Sys2Proof.Machine
end

section
/-! SUPPORT. Which instructions write which part of the state, and where `PC` goes, read off their effects. -/

namespace Sys2Proof.Machine

variable {s t : State} {i : Instr}

theorem Effect.sameStack (h : Effect s i t) (hret : i ≠ .ret) (hcall : ∀ nnn, i ≠ .call nnn) : SameStack s t := by
  cases h with
  | ret k _ => exact absurd rfl hret
  | call nnn _ => exact absurd rfl (hcall nnn)
  | _ => simp [SameStack]

theorem Effect.sameDisplay (h : Effect s i t) (hcls : i ≠ .cls) (hdrw : ∀ x y n, i ≠ .drw x y n) :
    SameDisplay s t := by
  cases h with
  | cls => exact absurd rfl hcls
  | drw x y n => exact absurd rfl (hdrw x y n)
  | _ => simp [SameDisplay]

theorem Effect.sameMemory (h : Effect s i t) (hbcd : ∀ x, i ≠ .ldB x) (hst : ∀ x, i ≠ .ldMemI x) : SameMemory s t := by
  intro a
  cases h with
  | storeDigits x _ _ => exact absurd rfl (hbcd x)
  | storeRegs x _ _ _ => exact absurd rfl (hst x)
  | _ => simp [State.byteAt]

theorem Effect.dt_eq (h : Effect s i t) (hi : ∀ x, i ≠ .ldDtVx x) : t.dt = s.dt := by
  cases h with
  | delayTimer x b => exact absurd rfl (hi x)
  | _ => simp

theorem Effect.st_eq (h : Effect s i t) (hi : ∀ x, i ≠ .ldStVx x) : t.st = s.st := by
  cases h with
  | soundTimer x b => exact absurd rfl (hi x)
  | _ => simp

/-- No effect is an update of `KEYS` or `FONT`. -/
theorem Effect.keys_font_eq (h : Effect s i t) : t.keys = s.keys ∧ t.font = s.font := by
  cases h <;> simp

/-- A write of `V[x]` that changes `V[k]` names it. -/
theorem State.eq_of_reg_setReg_ne {x k : RegIdx} {b : Byte} (h : (s.setReg x b).reg k ≠ s.reg k) : x = k :=
  not_imp_comm.1 (fun hx => s.reg_setReg_ne b (Ne.symm hx)) h

/-- Loading `V[0]` to `V[x]` changes `VF` only when `x` is 15. -/
theorem State.eq_of_reg_loadRegs_ne {x : RegIdx} {a : Nat}
    (h : (s.loadRegs a (regCount x)).reg 15 ≠ s.reg 15) : x = 15 := by
  rw [State.reg_loadRegs] at h
  have hx : (15 : RegIdx).val < regCount x := by
    by_contra hlt
    exact h (if_neg hlt)
  have := x.isLt
  exact Fin.ext (by simp only [regCount] at hx; omega)

/-! ### Where `PC` goes -/

/-- The instruction is no jump, call or return, no skip that is taken and no wait for a key: `PC` falls through. -/
def fallsThrough (s : State) (i : Instr) : Prop :=
  (∀ nnn, i ≠ .jp nnn ∧ i ≠ .call nnn) ∧ i ≠ .ret ∧ ¬ skipTaken s i ∧ ¬ keyWaiting s i

@[simp] theorem skipTaken_advancePc : skipTaken s.advancePc i ↔ skipTaken s i := by cases i <;> rfl

/-- Everything an instruction does to `PC` (R25): it takes a fault, jumps, returns, skips, waits or falls through. -/
theorem Effect.pc_cases (h : Effect s i t) :
    t.fault ≠ none ∨ (∃ nnn, (i = .jp nnn ∨ i = .call nnn) ∧ t.pc = zext16Addr nnn) ∨
    (i = .ret ∧ ∃ k : Fin 16, s.sp.val = k.val + 1 ∧ t.pc = s.stack.get k) ∨
    (skipTaken s i ∧ t.pc = s.pc + 2) ∨ (keyWaiting s i ∧ t.pc = s.pc - 2) ∨ (fallsThrough s i ∧ t.pc = s.pc) := by
  cases h with
  | fault _ => simp
  | ret k hk => exact .inr (.inr (.inl ⟨rfl, k, hk, rfl⟩))
  | jp nnn => exact .inr (.inl ⟨nnn, .inl rfl, rfl⟩)
  | call nnn _ => exact .inr (.inl ⟨nnn, .inr rfl, rfl⟩)
  | skip c hi hc =>
    cases c with
    | true => simp [hc.1 rfl]
    | false =>
      have hnot : ¬ skipTaken s i := fun hs => Bool.noConfusion (hc.2 hs)
      cases hi <;> simp [fallsThrough, keyWaiting, hnot]
  | waitKey x hup => simp [keyWaiting, hup]
  | takeKey x b hk =>
    have hdown : ∃ k, s.keyDown k = true := ⟨_, hk⟩
    simp [fallsThrough, skipTaken, keyWaiting, hdown]
  | reg b hi => cases hi <;> simp [fallsThrough, skipTaken, keyWaiting]
  | flag g f hi => cases hi <;> simp [fallsThrough, skipTaken, keyWaiting]
  | index w hi => cases hi <;> simp [fallsThrough, skipTaken, keyWaiting]
  | _ => simp [fallsThrough, skipTaken, keyWaiting]

@[simp] theorem fallsThrough_advancePc : fallsThrough s.advancePc i ↔ fallsThrough s i := by
  simp [fallsThrough, keyWaiting]

end Sys2Proof.Machine
end

section
/-! Who writes the stack, the display, memory, the timers, the keypad and `VF`, and where `PC` goes in a step. -/

namespace Sys2Proof.Machine

/-- Settles O49: every effect but a return and a completed call keeps `SP` and the stack. -/
theorem onlyCallAndRetChangeTheStack : Obligations.OnlyCallAndRetChangeTheStack :=
  fun _ _ _ h => (exec_effect h).sameStack

/-- Settles O50: each part of the state is kept by every effect but those of its writers. -/
theorem displayMemoryAndTimersHaveTheirWriters : Obligations.DisplayMemoryAndTimersHaveTheirWriters := by
  intro i s t h
  have he := exec_effect h
  exact ⟨he.sameDisplay, he.sameMemory, he.dt_eq, he.st_eq⟩

/-- Settles O51: every effect keeps `KEYS` and `FONT`. -/
theorem noInstructionWritesTheKeypad : Obligations.NoInstructionWritesTheKeypad :=
  fun _ _ _ h => (exec_effect h).keys_font_eq

/-- Settles O52: `VF` differs only after an effect that writes it as a flag, or that writes a register named 15. -/
theorem onlyFlagInstructionsAndNamedWritesChangeVF : Obligations.OnlyFlagInstructionsAndNamedWritesChangeVF := by
  intro i s t h hne
  cases exec_effect h with
  | flag g f hi => left; cases hi <;> simp
  | drw x y n => left; simp
  | rnd x nn b => obtain rfl := State.eq_of_reg_setReg_ne (s := s.rand8.2) hne; simp
  | reg b hi => obtain rfl := State.eq_of_reg_setReg_ne hne; cases hi <;> simp
  | takeKey x b _ => obtain rfl := State.eq_of_reg_setReg_ne hne; simp
  | loadRegs x a w => obtain rfl := State.eq_of_reg_loadRegs_ne hne; simp
  | _ => simp [State.reg] at hne

/-- Settles O53: the step is its instruction on the state after the fetch, where `PC` is already 2 on. -/
theorem pcAfterAStep : Obligations.PcAfterAStep := by
  intro s t i hf hi hstep ht
  have he : Effect s.advancePc i t := exec_effect (step_of_decodeWord_eq_ok hf hi ▸ hstep)
  rcases he.pc_cases with hfault | ⟨nnn, hn, hpc⟩ | hret | ⟨hs, hpc⟩ | ⟨hw, hpc⟩ | ⟨hthrough, hpc⟩
  · exact absurd ht hfault
  · exact .inl ⟨nnn, hn, by simp [hpc, zext16Addr]; omega⟩
  · exact .inr (.inl hret)
  · refine .inr (.inr (.inl ⟨skipTaken_advancePc.1 hs, ?_⟩))
    simp [hpc, BitVec.toNat_add]
  · exact .inr (.inr (.inr (.inl ⟨hw, by rw [hpc, State.advancePc_pc, BitVec.add_sub_cancel]⟩)))
  · obtain ⟨hjump, hret, hskip, hwait⟩ := fallsThrough_advancePc.1 hthrough
    exact .inr (.inr (.inr (.inr ⟨hjump, hret, hskip, hwait, by simp [hpc, BitVec.toNat_add]⟩)))

end Sys2Proof.Machine
end

section
/-! The reset state: its values (R38) and the invariant. -/

namespace Sys2Proof.Machine

/-- At reset memory reads as the font below 80 and as zero above (R38, R56). -/
theorem State.byteAt_reset {a : Nat} (h : a < 4096) :
    State.reset.byteAt a = Memory.unlisted State.reset.font a := by
  rw [State.byteAt, memIndex, Nat.mod_eq_of_lt h]
  rfl

/-- Settles O1: each component of the reset state read at the value R38 gives it. -/
theorem resetHoldsTheSpecValues : Obligations.ResetHoldsTheSpecValues := by
  refine ⟨fun k => ?_, rfl, rfl, rfl, fun k => ?_, rfl, rfl, fun a ha => ?_, fun a ha ha' => ?_,
    Framebuffer.pixel_clear, rfl, fun k => ?_, rfl⟩
  · simp [State.reg, State.reset, Vector.get_eq_getElem]
  · simp [State.reset, Vector.get_eq_getElem]
  · rw [State.byteAt_reset (by omega), Memory.unlisted, dif_pos ha]
  · rw [State.byteAt_reset ha', Memory.unlisted, dif_neg (by omega)]
  · simp [State.keyDown, State.reset, Vector.get_eq_getElem]

/-- Settles O2: nothing is listed at reset, and nothing has faulted. -/
theorem resetMeetsTheInvariant : Obligations.ResetMeetsTheInvariant :=
  ⟨Memory.nil_wf _, fun _ h => nomatch h⟩

end Sys2Proof.Machine
end

section
/-! SUPPORT. An instruction's word decodes to the instruction: the round trip that the fault records rest on. -/

namespace Sys2Proof.Machine

/-- The family digit of an instruction's word selects its arm of the decoder, and the word's other digits are the fixed
ones of its row and its operands (R86, R87). -/
theorem decodeWord_encode (i : Instr) : decodeWord (encode i) = .ok i := by
  cases i with
  | cls => decide
  | ret => decide
  | _ => simp [encode, decodeWord, decodeEight, decodeE, decodeF]

end Sys2Proof.Machine
end

section
/-! SUPPORT. The invariant: what a step, a transaction and a run of transactions keep of it. -/

namespace Sys2Proof.Machine

variable {s t : State} {i : Instr}

/-- The record of a fault that an instruction takes is justified by the state it leaves (R222 to R224). -/
theorem FaultRecord.justified_takeFault {kind : FaultKind} (h : takesFault s i kind) :
    FaultRecord.justified (s.takeFault kind (encode i)) ⟨kind, encode i, s.pc - 2⟩ := by
  refine ⟨rfl, ?_⟩
  simp only [takesFault] at h
  split at h
  · next nnn => exact ⟨h, nnn, decodeWord_encode _⟩
  · exact ⟨h, decodeWord_encode _⟩
  · next x => exact ⟨x, .inl (decodeWord_encode _), h⟩
  · next x => exact ⟨x, .inr (decodeWord_encode _), h⟩
  · exact h.elim

/-- The invariant of a core that is not halted is that its memory is canonical. -/
theorem State.inv_of_fault_eq_none (hm : Memory.wf s.font s.mem) (hf : s.fault = none) : s.Inv :=
  ⟨hm, fun r hr => by simp [hf] at hr⟩

/-- The invariant of a halted core: its memory is canonical and its record is justified. -/
theorem State.inv_of_fault_eq_some {r : FaultRecord} (hm : Memory.wf s.font s.mem) (hf : s.fault = some r)
    (hr : r.justified s) : s.Inv :=
  ⟨hm, fun r' hr' => by rw [hf] at hr'; cases hr'; exact hr⟩

/-- Whatever keeps memory canonical and leaves `PC`, `SP`, `V` and `FAULT` alone keeps the invariant: a fault record
speaks of these alone. -/
theorem State.Inv.of_core_eq (h : s.Inv) (hm : Memory.wf t.font t.mem) (hpc : t.pc = s.pc) (hsp : t.sp = s.sp)
    (hv : t.v = s.v) (hf : t.fault = s.fault) : t.Inv := by
  refine ⟨hm, fun r hr => ?_⟩
  have hs : r.justified s := h.2 r (hf ▸ hr)
  simpa only [FaultRecord.justified, State.reg, hpc, hsp, hv] using hs

/-- An instruction run by a core that is not halted leaves the invariant. -/
theorem exec_inv (hm : Memory.wf s.font s.mem) (hf : s.fault = none) (h : exec i s = .next t) : t.Inv := by
  have htm : Memory.wf t.font t.mem := exec_memory_wf h hm
  rcases exec_fault_cases h with ⟨kind, htakes, rfl⟩ | htf
  · exact State.inv_of_fault_eq_some htm rfl (FaultRecord.justified_takeFault htakes)
  · exact State.inv_of_fault_eq_none htm (htf.trans hf)

/-- A step keeps the invariant: it takes DecodeFault, whose record its word justifies, or runs its instruction. -/
theorem step_inv (hs : s.Inv) (h : step s = .next t) : t.Inv := by
  obtain ⟨hf, ⟨e, he, rfl⟩ | ⟨i, -, hexec⟩⟩ := step_cases h
  · exact State.inv_of_fault_eq_some hs.1 rfl ⟨rfl, e, he⟩
  · exact exec_inv (s := s.advancePc) hs.1 hf hexec

/-- The `step` transaction leaves the state of its step, or a halted core's state as it was (R226). -/
theorem stepTransaction_cases {reply : HostReply} (h : stepTransaction s = .next (t, reply)) :
    (step s = .next t ∧ reply = t.stepReply) ∨
    (t = s ∧ ∃ r, step s = .fault (.halted r) ∧ reply = .stepFault r) := by
  unfold stepTransaction at h
  split at h
  · next u hu => cases h; exact .inl ⟨hu, rfl⟩
  · next r hr => cases h; exact .inr ⟨rfl, r, hr, rfl⟩
  · cases h

/-- A key setter that is answered wrote its one key (R247). -/
theorem keyTransaction_eq_next {k : Nat} {down : Bool} {reply : HostReply}
    (h : keyTransaction s k down = .next (t, reply)) :
    ∃ hk : k < 16, t = s.setKey ⟨k, hk⟩ down ∧ reply = .ok := by
  by_cases hk : k < 16
  · simp only [keyTransaction, State.keySetter, hk, dif_pos] at h
    cases h; exact ⟨hk, rfl, rfl⟩
  · simp only [keyTransaction, State.keySetter, hk, dif_neg, not_false_eq_true] at h
    cases h

/-- `load` stores the image from `PROGBASE` on, or leaves the state as it was (R272). -/
theorem transact_load_cases {image : List Byte} {reply : HostReply}
    (h : transact (.load image) s = .next (t, reply)) :
    (image.length ≤ Config.maxImage ∧ t = s.storeBytes Config.progBase image ∧ reply = .ok) ∨
    (Config.maxImage < image.length ∧ t = s ∧ reply = .loadRejected .loadOverflow image.length) := by
  by_cases hlen : image.length ≤ Config.maxImage
  · simp only [transact, State.load, WellFormed.image, hlen, decide_true, if_true] at h
    cases h; exact .inl ⟨hlen, rfl, rfl⟩
  · simp only [transact, State.load, WellFormed.image, hlen, decide_false] at h
    cases h; exact .inr ⟨by omega, rfl, rfl⟩

theorem State.Inv.setKey (h : s.Inv) (k : Fin 16) (down : Bool) : (s.setKey k down).Inv :=
  h.of_core_eq h.1 rfl rfl rfl rfl

theorem State.Inv.storeBytes (h : s.Inv) (a : Nat) (bs : List Byte) : (s.storeBytes a bs).Inv :=
  h.of_core_eq (by simpa using s.storeBytes_wf a bs h.1) (by simp) (by simp) (by simp) (by simp)

theorem transact_inv {c : HostCall} {reply : HostReply} (hs : s.Inv) (h : transact c s = .next (t, reply)) :
    t.Inv := by
  cases c with
  | step =>
    rcases stepTransaction_cases h with ⟨hstep, -⟩ | ⟨rfl, -⟩
    · exact step_inv hs hstep
    · exact hs
  | load image =>
    rcases transact_load_cases h with ⟨-, rfl, -⟩ | ⟨-, rfl, -⟩
    · exact hs.storeBytes _ image
    · exact hs
  | keyPress k => obtain ⟨hk, rfl, -⟩ := keyTransaction_eq_next h; exact hs.setKey ⟨k, hk⟩ true
  | keyRelease k => obtain ⟨hk, rfl, -⟩ := keyTransaction_eq_next h; exact hs.setKey ⟨k, hk⟩ false
  | advanceTimers => cases h; exact hs.of_core_eq hs.1 rfl rfl rfl rfl
  | ackRedraw => cases h; exact hs.of_core_eq hs.1 rfl rfl rfl rfl
  | readFramebuffer => cases h; exact hs
  | readRedraw => cases h; exact hs

/-- The first transaction of a run that is answered is answered, and the run goes on from its state. -/
theorem transactAll_cons_eq_next {c : HostCall} {cs : List HostCall} (h : transactAll s (c :: cs) = .next t) :
    ∃ u reply, transact c s = .next (u, reply) ∧ transactAll u cs = .next t := by
  rw [transactAll] at h
  split at h
  · next u reply hu => exact ⟨u, reply, hu, h⟩
  · cases h
  · cases h

end Sys2Proof.Machine
end

section
/-! SUPPORT. The fetched word as a number, and the bytes that a multi-byte store leaves for a fetch. -/

namespace Sys2Proof.Machine

variable {s t u : State}

/-- The word of two bytes is big-endian (R52). -/
theorem wordOfBytes_toNat (hi lo : Byte) : (wordOfBytes hi lo).toNat = hi.toNat * 256 + lo.toNat := by
  rw [wordOfBytes, BitVec.toNat_append, ← Nat.shiftLeft_add_eq_or_of_lt lo.isLt, Nat.shiftLeft_eq]

theorem State.fetchWord_toNat (s : State) :
    s.fetchWord.toNat = (s.byteAt s.pc.toNat).toNat * 256 + (s.byteAt (s.pc.toNat + 1)).toNat :=
  wordOfBytes_toNat _ _

/-- A fetch sees at an address the byte that memory holds there. -/
theorem fetchSees_of_byteAt {a : Nat} {b : Byte} (h : s.byteAt a = b) : fetchSees s a b := by
  have hlo := (s.byteAt (s.pc.toNat + 1)).isLt
  rw [fetchSees, State.fetchWord_toNat]
  constructor
  · intro ha
    rw [s.byteAt_congr ha, h]
    omega
  · intro ha
    rw [s.byteAt_congr ha, h] at hlo ⊢
    omega

/-- After a multi-byte store a fetch sees each stored byte at its address (R64). -/
theorem fetchSees_storeBytes {a k : Nat} {bs : List Byte} (hmem : SameMemory (s.storeBytes a bs) u)
    (hlen : bs.length ≤ 4096) (hk : k < bs.length) : fetchSees u (a + k) bs[k] :=
  fetchSees_of_byteAt ((hmem _).trans (s.byteAt_storeBytes a k bs hlen hk))

theorem State.lowRegs_length (s : State) (x : RegIdx) : (s.lowRegs x).length = regCount x := by
  have := x.isLt
  simp only [State.lowRegs, regCount, List.length_take, Vector.length_toList]
  omega

theorem State.getElem_lowRegs {x : RegIdx} {k : Nat} (hk : k < (s.lowRegs x).length) (h : k < 16) :
    (s.lowRegs x)[k] = s.reg ⟨k, h⟩ := by
  simp [State.lowRegs, State.reg, Vector.get_eq_getElem]

/-- FX55 stores `V[0]` to `V[x]` from `I` on (R174). -/
theorem fetchSees_execLdMemI {x k : RegIdx} (h : exec (.ldMemI x) s = .next t) (hmem : SameMemory t u) (hk : k ≤ x) :
    fetchSees u (s.i.toNat + k.val) (s.reg k) := by
  cases h
  have hlen := s.lowRegs_length x
  have hkx : k.val < regCount x := Nat.lt_succ_of_le hk
  have hx : regCount x ≤ 16 := x.isLt
  have hkl : k.val < (s.lowRegs x).length := by omega
  have hsees := fetchSees_storeBytes (s := s) (a := s.dataAddr 0) hmem (by omega) hkl
  rwa [State.getElem_lowRegs hkl k.isLt] at hsees

@[simp] theorem decimalDigits_length (b : Byte) : (decimalDigits b).length = 3 := rfl

/-- FX33 stores the three decimal digits of `V[x]` from `I` on (R173). -/
theorem fetchSees_execLdB {x : RegIdx} {k : Nat} (h : exec (.ldB x) s = .next t) (hmem : SameMemory t u) (hk : k < 3) :
    fetchSees u (s.i.toNat + k) ((decimalDigits (s.reg x))[k]) := by
  cases h
  exact fetchSees_storeBytes (s := s) (a := s.dataAddr 0) hmem (by simp) hk

/-- A fetch whose high byte comes from `a` and whose low byte from `a + 1` is their big-endian word. -/
theorem fetchWord_toNat_of_fetchSees {a : Nat} {hi lo : Byte} (hhi : fetchSees u a hi) (hlo : fetchSees u (a + 1) lo)
    (hpc : memIndex u.pc.toNat = memIndex a) : u.fetchWord.toNat = hi.toNat * 256 + lo.toNat := by
  have hpc' : memIndex (u.pc.toNat + 1) = memIndex (a + 1) := by simp only [memIndex] at *; omega
  have hhigh := hhi.1 hpc
  have hlow := hlo.2 hpc'
  omega

end Sys2Proof.Machine
end

section
/-! Memory under the host's transactions: the invariant of every run, the fetched word, and stores seen by a fetch. -/

namespace Sys2Proof.Machine

/-- Settles O4: by induction on the run, each transaction keeps the invariant. -/
theorem hostRunsKeepTheInvariant : Obligations.HostRunsKeepTheInvariant := by
  intro calls
  induction calls with
  | nil => intro s t hs h; cases h; exact hs
  | cons c cs ih =>
    intro s t hs h
    obtain ⟨u, reply, hu, hrest⟩ := transactAll_cons_eq_next h
    exact ih u t (transact_inv hs hu) hrest

/-- Settles O15: the fetched word is the big-endian word of the two bytes, and reducing an address changes no read. -/
theorem fetchReadsTwoBytesBigEndian : Obligations.FetchReadsTwoBytesBigEndian := by
  intro s
  rw [State.byteAt_mod, State.byteAt_mod, State.fetchWord_toNat]

/-- Settles O34: each of the three is a multi-byte store, and a fetch sees each byte of it. -/
theorem aStoreIsSeenByTheNextFetch : Obligations.AStoreIsSeenByTheNextFetch := by
  refine ⟨fun x s t u h hmem => ⟨fun k hk => fetchSees_execLdMemI h hmem hk, fun hx hpc => ?_⟩,
    fun x s t u h hmem => ?_, fun image s t u h hmem k hk => ?_⟩
  · have hhi : fetchSees u s.i.toNat (s.reg 0) := fetchSees_execLdMemI h hmem (Fin.zero_le x)
    have hlo : fetchSees u (s.i.toNat + 1) (s.reg 1) := fetchSees_execLdMemI h hmem hx
    exact fetchWord_toNat_of_fetchSees hhi hlo hpc
  · exact ⟨fetchSees_execLdB (k := 0) h hmem (by decide), fetchSees_execLdB (k := 1) h hmem (by decide),
      fetchSees_execLdB (k := 2) h hmem (by decide)⟩
  · rcases transact_load_cases h with ⟨hlen, rfl, -⟩ | ⟨-, -, hreply⟩
    · exact fetchSees_storeBytes hmem (hlen.trans (by decide)) hk
    · cases hreply

end Sys2Proof.Machine
end

section
/-! SUPPORT. A word is its digits: put together again they make the word (R84), and as numbers they are its bits. -/

namespace Sys2Proof

variable {w : Word}

theorem addrWord_fields (w : Word) : fieldFamily w ++ fieldNNN w = w :=
  BitVec.extractLsb'_append_extractLsb'

theorem immWord_fields (w : Word) : fieldFamily w ++ regBits (fieldX w) ++ fieldNN w = w := by
  have h : fieldFamily w ++ regBits (fieldX w) = w.extractLsb' 8 8 :=
    BitVec.extractLsb'_append_extractLsb'_eq_extractLsb' rfl
  rw [h]
  exact BitVec.extractLsb'_append_extractLsb'

theorem regWord_fields (w : Word) :
    fieldFamily w ++ regBits (fieldX w) ++ regBits (fieldY w) ++ fieldN w = w := by
  have hx : fieldFamily w ++ regBits (fieldX w) = w.extractLsb' 8 8 :=
    BitVec.extractLsb'_append_extractLsb'_eq_extractLsb' rfl
  have hy : w.extractLsb' 8 8 ++ regBits (fieldY w) = w.extractLsb' 4 12 :=
    BitVec.extractLsb'_append_extractLsb'_eq_extractLsb' rfl
  rw [hx, hy]
  exact BitVec.extractLsb'_append_extractLsb'

/-! The word of a pattern: its family, its other fixed digits, and the fields that are its operands. -/

theorem addrWord_eq {a : Nibble} (ha : fieldFamily w = a) : a ++ fieldNNN w = w :=
  ha ▸ addrWord_fields w

theorem immWord_eq {a : Nibble} {b : Byte} (ha : fieldFamily w = a) (hb : fieldNN w = b) :
    a ++ regBits (fieldX w) ++ b = w :=
  ha ▸ hb ▸ immWord_fields w

theorem regWord_eq {a d : Nibble} (ha : fieldFamily w = a) (hd : fieldN w = d) :
    a ++ regBits (fieldX w) ++ regBits (fieldY w) ++ d = w :=
  ha ▸ hd ▸ regWord_fields w

/-! The digits as numbers (R81, R84). -/

theorem fieldFamily_toNat (w : Word) : (fieldFamily w).toNat = w.toNat / 0x1000 := by
  have := w.isLt
  rw [fieldFamily, BitVec.extractLsb'_toNat, Nat.shiftRight_eq_div_pow]
  omega

theorem fieldX_val (w : Word) : (fieldX w).val = w.toNat / 0x100 % 0x10 := by
  rw [fieldX, BitVec.val_toFin, BitVec.extractLsb'_toNat, Nat.shiftRight_eq_div_pow]

theorem fieldY_val (w : Word) : (fieldY w).val = w.toNat / 0x10 % 0x10 := by
  rw [fieldY, BitVec.val_toFin, BitVec.extractLsb'_toNat, Nat.shiftRight_eq_div_pow]

theorem fieldN_toNat (w : Word) : (fieldN w).toNat = w.toNat % 0x10 :=
  BitVec.extractLsb'_toNat 0 4 w

theorem fieldNN_toNat (w : Word) : (fieldNN w).toNat = w.toNat % 0x100 :=
  BitVec.extractLsb'_toNat 0 8 w

theorem fieldNNN_toNat (w : Word) : (fieldNNN w).toNat = w.toNat % 0x1000 :=
  BitVec.extractLsb'_toNat 0 12 w

end Sys2Proof
end

section
/-! The round trip between words and instructions, in both directions, and the operands a word carries. -/

namespace Sys2Proof.Machine

variable {w : Word} {i : Instr}

/-- Settles O7: the two bytes of a word make the word again, and an instruction's word decodes to the instruction. -/
theorem decodeOfEncodeIsTheInstruction : Obligations.DecodeOfEncodeIsTheInstruction := by
  intro i rest _
  refine decode_cons_cons_eq_ok.mpr ?_
  rw [wordOfBytes_wordBytes]
  exact decodeWord_encode i

/-! Every arm of the decoder answers the instruction whose pattern its digits are (R86). -/

theorem encode_of_decodeZero (h : decodeZero w = .ok i) : encode i = w := by
  unfold decodeZero at h
  split at h
  · next hw => cases h; exact hw.symm
  · split at h
    · next hw => cases h; exact hw.symm
    · cases h

theorem encode_of_decodeEight (hf : fieldFamily w = 0x8#4) (h : decodeEight w = .ok i) : encode i = w := by
  unfold decodeEight at h
  split at h
  case h_9 => cases h
  all_goals
    next hn =>
      cases h
      exact regWord_eq hf (BitVec.eq_of_toNat_eq hn)

theorem encode_of_decodeE (hf : fieldFamily w = 0xE#4) (h : decodeE w = .ok i) : encode i = w := by
  unfold decodeE at h
  repeat'
    split at h
    · next hn => cases h; exact immWord_eq hf hn
  cases h

theorem encode_of_decodeF (hf : fieldFamily w = 0xF#4) (h : decodeF w = .ok i) : encode i = w := by
  unfold decodeF at h
  repeat'
    split at h
    · next hn => cases h; exact immWord_eq hf hn
  cases h

/-- The decoder loses no bit: a word is the encoding of what it decodes to (R86, R89). -/
theorem encode_of_decodeWord (h : decodeWord w = .ok i) : encode i = w := by
  unfold decodeWord at h
  split at h
  case h_1 => exact encode_of_decodeZero h
  case h_6 hf =>
    split at h
    · next hn => cases h; exact regWord_eq (BitVec.eq_of_toNat_eq hf) hn
    · cases h
  case h_9 hf => exact encode_of_decodeEight (BitVec.eq_of_toNat_eq hf) h
  case h_10 hf =>
    split at h
    · next hn => cases h; exact regWord_eq (BitVec.eq_of_toNat_eq hf) hn
    · cases h
  case h_12 => cases h
  case h_14 hf => cases h; exact regWord_eq (BitVec.eq_of_toNat_eq hf) rfl
  case h_15 hf => exact encode_of_decodeE (BitVec.eq_of_toNat_eq hf) h
  case h_16 =>
    simp only [imp_false] at *
    have hf : (fieldFamily w).toNat = 0xF := by omega
    exact encode_of_decodeF (BitVec.eq_of_toNat_eq hf) h
  case h_2 hf | h_3 hf | h_11 hf => cases h; exact addrWord_eq (BitVec.eq_of_toNat_eq hf)
  all_goals
    next hf =>
      cases h
      exact immWord_eq (BitVec.eq_of_toNat_eq hf) rfl

/-- Settles O8: each arm of the decoder fixes the digits of its pattern and takes the others as operands. -/
theorem encodeOfDecodeIsTheWord : Obligations.EncodeOfDecodeIsTheWord :=
  fun _ _ => encode_of_decodeWord

/-- The operands of an instruction are the fields of its word. -/
theorem operandsAreDigitsOf_encode (i : Instr) : operandsAreDigitsOf (encode i).toNat i := by
  cases i <;> simp [operandsAreDigitsOf, encode, ← fieldX_val, ← fieldY_val, ← fieldN_toNat, ← fieldNN_toNat,
    ← fieldNNN_toNat]

/-- Settles O10: a field is its bits of the word, and a word that decodes is the word of its instruction. -/
theorem operandsComeFromTheirFields : Obligations.OperandsComeFromTheirFields := by
  refine fun w => ⟨fieldX_val w, fieldY_val w, fieldN_toNat w, fieldNN_toNat w, fieldNNN_toNat w, fun i hi => ?_⟩
  rw [← encode_of_decodeWord hi]
  exact operandsAreDigitsOf_encode i

/-- Settles O12: the decoder run on each of the sixteen words. -/
theorem writtenOutWordsDecode : Obligations.WrittenOutWordsDecode := by
  unfold Obligations.WrittenOutWordsDecode
  decide

end Sys2Proof.Machine
end

section
/-! SUPPORT. The opcode map (R86): the words of a row are the encodings of one constructor, since the digits that its
mask covers are fixed and the others are the operands. -/

namespace Sys2Proof

variable {w mask value : Word} {name : String}

/-- Every word of the row is the encoding of an instruction of the row. -/
def OpcodeRow.Encoded (r : OpcodeRow) : Prop :=
  ∀ w : Word, w &&& r.mask = r.value → ∃ i, encode i = w ∧ i.mnemonic = r.mnemonic

theorem fieldFamily_of_and_eq (h : w &&& mask = value) (hm : fieldFamily mask = BitVec.allOnes 4) :
    fieldFamily w = fieldFamily value := by
  have : fieldFamily (w &&& mask) = fieldFamily w &&& fieldFamily mask := BitVec.extractLsb'_and
  rw [← h, this, hm, BitVec.and_allOnes]

theorem fieldN_of_and_eq (h : w &&& mask = value) (hm : fieldN mask = BitVec.allOnes 4) :
    fieldN w = fieldN value := by
  have : fieldN (w &&& mask) = fieldN w &&& fieldN mask := BitVec.extractLsb'_and
  rw [← h, this, hm, BitVec.and_allOnes]

theorem fieldNN_of_and_eq (h : w &&& mask = value) (hm : fieldNN mask = BitVec.allOnes 8) :
    fieldNN w = fieldNN value := by
  have : fieldNN (w &&& mask) = fieldNN w &&& fieldNN mask := BitVec.extractLsb'_and
  rw [← h, this, hm, BitVec.and_allOnes]

/-! The shapes of the patterns. The row's value holds the pattern's fixed digits; each row of the table meets the
hypotheses by evaluation. -/

theorem OpcodeRow.encoded_fixed (i : Instr) (hname : i.mnemonic = name := by rfl)
    (henc : encode i = value := by rfl) : OpcodeRow.Encoded ⟨name, 0xFFFF#16, value⟩ :=
  fun _ hw => ⟨i, henc.trans (hw.symm.trans BitVec.and_allOnes), hname⟩

theorem OpcodeRow.encoded_nnn (c : Addr12 → Instr) (hname : ∀ nnn, (c nnn).mnemonic = name := by intros; rfl)
    (henc : ∀ nnn, encode (c nnn) = fieldFamily value ++ nnn := by intros; rfl) :
    OpcodeRow.Encoded ⟨name, 0xF000#16, value⟩ := by
  intro w (hw : w &&& 0xF000#16 = value)
  have hf := fieldFamily_of_and_eq hw (by decide)
  exact ⟨c (fieldNNN w), (henc _).trans (addrWord_eq hf), hname _⟩

theorem OpcodeRow.encoded_xnn (c : RegIdx → Byte → Instr)
    (hname : ∀ x nn, (c x nn).mnemonic = name := by intros; rfl)
    (henc : ∀ x nn, encode (c x nn) = fieldFamily value ++ regBits x ++ nn := by intros; rfl) :
    OpcodeRow.Encoded ⟨name, 0xF000#16, value⟩ := by
  intro w (hw : w &&& 0xF000#16 = value)
  have hf := fieldFamily_of_and_eq hw (by decide)
  exact ⟨c (fieldX w) (fieldNN w), (henc _ _).trans (immWord_eq hf rfl), hname _ _⟩

theorem OpcodeRow.encoded_xyn (c : RegIdx → RegIdx → Nibble → Instr)
    (hname : ∀ x y n, (c x y n).mnemonic = name := by intros; rfl)
    (henc : ∀ x y n, encode (c x y n) = fieldFamily value ++ regBits x ++ regBits y ++ n := by intros; rfl) :
    OpcodeRow.Encoded ⟨name, 0xF000#16, value⟩ := by
  intro w (hw : w &&& 0xF000#16 = value)
  have hf := fieldFamily_of_and_eq hw (by decide)
  exact ⟨c (fieldX w) (fieldY w) (fieldN w), (henc _ _ _).trans (regWord_eq hf rfl), hname _ _ _⟩

theorem OpcodeRow.encoded_xy (c : RegIdx → RegIdx → Instr)
    (hname : ∀ x y, (c x y).mnemonic = name := by intros; rfl)
    (henc : ∀ x y, encode (c x y) = fieldFamily value ++ regBits x ++ regBits y ++ fieldN value := by intros; rfl) :
    OpcodeRow.Encoded ⟨name, 0xF00F#16, value⟩ := by
  intro w (hw : w &&& 0xF00F#16 = value)
  have hf := fieldFamily_of_and_eq hw (by decide)
  have hn := fieldN_of_and_eq hw (by decide)
  exact ⟨c (fieldX w) (fieldY w), (henc _ _).trans (regWord_eq hf hn), hname _ _⟩

theorem OpcodeRow.encoded_x (c : RegIdx → Instr)
    (hname : ∀ x, (c x).mnemonic = name := by intros; rfl)
    (henc : ∀ x, encode (c x) = fieldFamily value ++ regBits x ++ fieldNN value := by intros; rfl) :
    OpcodeRow.Encoded ⟨name, 0xF0FF#16, value⟩ := by
  intro w (hw : w &&& 0xF0FF#16 = value)
  have hf := fieldFamily_of_and_eq hw (by decide)
  have hnn := fieldNN_of_and_eq hw (by decide)
  exact ⟨c (fieldX w), (henc _).trans (immWord_eq hf hnn), hname _⟩

/-! The table, row by row. -/

open OpcodeRow

theorem encoded_of_mem_low : ∀ r ∈ opcodeTableLow, r.Encoded := by
  simp only [opcodeTableLow, List.forall_mem_cons]
  exact ⟨encoded_fixed .cls, encoded_fixed .ret, encoded_nnn .jp, encoded_nnn .call, encoded_xnn .seImm,
    encoded_xnn .sneImm, encoded_xy .seReg, encoded_xnn .ldImm, encoded_xnn .addImm, List.forall_mem_nil _⟩

theorem encoded_of_mem_mid : ∀ r ∈ opcodeTableMid, r.Encoded := by
  simp only [opcodeTableMid, List.forall_mem_cons]
  exact ⟨encoded_xy .ldReg, encoded_xy .or, encoded_xy .and, encoded_xy .xor, encoded_xy .addReg, encoded_xy .sub,
    encoded_xy .shr, encoded_xy .shl, encoded_xy .sneReg, encoded_nnn .ldI, encoded_xnn .rnd, encoded_xyn .drw,
    List.forall_mem_nil _⟩

theorem encoded_of_mem_high : ∀ r ∈ opcodeTableHigh, r.Encoded := by
  simp only [opcodeTableHigh, List.forall_mem_cons]
  exact ⟨encoded_x .skp, encoded_x .sknp, encoded_x .ldVxDt, encoded_x .ldVxK, encoded_x .ldDtVx, encoded_x .ldStVx,
    encoded_x .addI, encoded_x .ldF, encoded_x .ldB, encoded_x .ldMemI, encoded_x .ldVxMemI, List.forall_mem_nil _⟩

theorem encoded_of_mem {r : OpcodeRow} (hr : r ∈ opcodeTable) : r.Encoded := by
  simp only [opcodeTable, List.mem_append] at hr
  rcases hr with (hr | hr) | hr
  · exact encoded_of_mem_low r hr
  · exact encoded_of_mem_mid r hr
  · exact encoded_of_mem_high r hr

theorem eq_of_mnemonic_eq {r r' : OpcodeRow} (hr : r ∈ opcodeTable) (hr' : r' ∈ opcodeTable)
    (h : r.mnemonic = r'.mnemonic) : r = r' := by
  have hnodup : (opcodeTable.map OpcodeRow.mnemonic).Nodup := by decide
  exact List.inj_on_of_nodup_map hnodup hr hr' h

end Sys2Proof
end

section
namespace Sys2Proof.Laws.EncodingRow

/-- The row of the instruction's mnemonic accepts its word, for every instruction. -/
theorem of_instr : ∀ i, Statement i
  | .cls => cls
  | .ret => ret
  | .jp nnn => jp nnn
  | .call nnn => call nnn
  | .seImm x nn => seImm x nn
  | .sneImm x nn => sneImm x nn
  | .seReg x y => seReg x y
  | .ldImm x nn => ldImm x nn
  | .addImm x nn => addImm x nn
  | .ldReg x y => ldReg x y
  | .or x y => or x y
  | .and x y => and x y
  | .xor x y => xor x y
  | .addReg x y => addReg x y
  | .sub x y => sub x y
  | .shr x y => shr x y
  | .shl x y => shl x y
  | .sneReg x y => sneReg x y
  | .ldI nnn => ldI nnn
  | .rnd x nn => rnd x nn
  | .drw x y n => drw x y n
  | .skp x => skp x
  | .sknp x => sknp x
  | .ldVxDt x => ldVxDt x
  | .ldVxK x => ldVxK x
  | .ldDtVx x => ldDtVx x
  | .ldStVx x => ldStVx x
  | .addI x => addI x
  | .ldF x => ldF x
  | .ldB x => ldB x
  | .ldMemI x => ldMemI x
  | .ldVxMemI x => ldVxMemI x

end Sys2Proof.Laws.EncodingRow
end

section
/-! Decoding follows the opcode map (R86, R87). -/

namespace Sys2Proof.Machine

/-- Settles O9: the instructions of a row's words are the row's, and mnemonics tell the rows apart, so no word that has
one meaning matches two rows. -/
theorem decodeFollowsTheOpcodeMap : Obligations.DecodeFollowsTheOpcodeMap := by
  have hrow : ∀ (w : Word) (r : OpcodeRow), r ∈ opcodeTable → w &&& r.mask = r.value →
      ∃ i, decodeWord w = .ok i ∧ i.mnemonic = r.mnemonic := by
    intro w r hr hw
    obtain ⟨i, rfl, hname⟩ := encoded_of_mem hr w hw
    exact ⟨i, decodeWord_encode i, hname⟩
  refine ⟨fun w i hi => ?_, hrow, fun w r r' hr hr' hw hw' => ?_⟩
  · obtain ⟨r, hr, hname, hacc⟩ := Laws.EncodingRow.of_instr i
    rw [← encode_of_decodeWord hi]
    exact ⟨r, hr, hname, beq_iff_eq.mp hacc⟩
  · obtain ⟨i, hi, hname⟩ := hrow w r hr hw
    obtain ⟨i', hi', hname'⟩ := hrow w r' hr' hw'
    obtain rfl : i = i' := Except.ok.inj (hi.symm.trans hi')
    exact eq_of_mnemonic_eq hr hr' (hname.symm.trans hname')

end Sys2Proof.Machine
end

section
/-! SUPPORT. The illegal words (R88): which words each arm of the decoder refuses. -/

namespace Sys2Proof.Machine

variable {w : Word}

theorem exists_decodeZero_eq_error_iff : (∃ e, decodeZero w = .error e) ↔ w.toNat ≠ 0x00E0 ∧ w.toNat ≠ 0x00EE := by
  simp only [decodeZero, ← BitVec.toNat_inj]
  by_cases hcls : w.toNat = 0x00E0
  · simp [hcls]
  · by_cases hret : w.toNat = 0x00EE <;> simp [hcls, hret]

theorem exists_decodeEight_eq_error_iff :
    (∃ e, decodeEight w = .error e) ↔ w.toNat % 0x10 ∈ [7, 8, 9, 0xA, 0xB, 0xC, 0xD, 0xF] := by
  simp only [decodeEight, fieldN_toNat]
  split
  case h_9 =>
    simp only [imp_false] at *
    have hn : w.toNat % 0x10 ∈ [7, 8, 9, 0xA, 0xB, 0xC, 0xD, 0xF] := by
      simp only [List.mem_cons, List.not_mem_nil]
      omega
    exact iff_of_true ⟨_, rfl⟩ hn
  all_goals
    next hn => simp [hn]

theorem exists_decodeE_eq_error_iff : (∃ e, decodeE w = .error e) ↔ w.toNat % 0x100 ∉ [0x9E, 0xA1] := by
  simp only [decodeE, ← BitVec.toNat_inj, fieldNN_toNat, BitVec.toNat_ofNat]
  repeat'
    split
    · next hn => simp [hn]
  simp_all

theorem exists_decodeF_eq_error_iff : (∃ e, decodeF w = .error e) ↔
    w.toNat % 0x100 ∉ [0x07, 0x0A, 0x15, 0x18, 0x1E, 0x29, 0x33, 0x55, 0x65] := by
  simp only [decodeF, ← BitVec.toNat_inj, fieldNN_toNat, BitVec.toNat_ofNat]
  repeat'
    split
    · next hn => simp [hn]
  simp_all

/-- The seven classes of illegal words of R88. -/
def IllegalWord (w : Nat) : Prop :=
  (w < 0x1000 ∧ w ≠ 0x00E0 ∧ w ≠ 0x00EE) ∨
  (w / 0x1000 = 5 ∧ w % 0x10 ≠ 0) ∨ (w / 0x1000 = 9 ∧ w % 0x10 ≠ 0) ∨
  (w / 0x1000 = 8 ∧ w % 0x10 ∈ [7, 8, 9, 0xA, 0xB, 0xC, 0xD, 0xF]) ∨
  w / 0x1000 = 0xB ∨
  (w / 0x1000 = 0xE ∧ w % 0x100 ∉ [0x9E, 0xA1]) ∨
  (w / 0x1000 = 0xF ∧ w % 0x100 ∉ [0x07, 0x0A, 0x15, 0x18, 0x1E, 0x29, 0x33, 0x55, 0x65])

/-- A word decodes to nothing exactly when it is in one of the seven classes: each arm of the decoder refuses the words
of its own family's class. -/
theorem exists_decodeWord_eq_error_iff : (∃ e, decodeWord w = .error e) ↔ IllegalWord w.toNat := by
  have hzero : w.toNat < 0x1000 ↔ w.toNat / 0x1000 = 0 := by omega
  simp only [decodeWord, fieldFamily_toNat, ← BitVec.toNat_inj, fieldN_toNat, IllegalWord, hzero]
  split
  case h_1 hf => simp [hf, exists_decodeZero_eq_error_iff]
  case h_6 hf => by_cases hn : w.toNat % 0x10 = 0 <;> simp [hf, hn]
  case h_9 hf => simp [hf, exists_decodeEight_eq_error_iff]
  case h_10 hf => by_cases hn : w.toNat % 0x10 = 0 <;> simp [hf, hn]
  case h_15 hf => simp [hf, exists_decodeE_eq_error_iff]
  case h_16 =>
    simp only [imp_false] at *
    have hf : w.toNat / 0x1000 = 0xF := by omega
    simp [hf, exists_decodeF_eq_error_iff]
  all_goals
    next hf => simp [hf]

theorem not_takesFault_decodeFault (s : State) (i : Instr) : ¬ takesFault s i .decodeFault := by
  cases i <;> exact id

/-- A step takes DecodeFault exactly when the fetched word decodes to nothing: an instruction takes only faults of its
own kinds (R221, R228). -/
theorem step_eq_decodeFault_iff {s : State} (hf : s.fault = none) :
    step s = .next { s with fault := some ⟨.decodeFault, s.fetchWord, s.pc⟩ } ↔
      ∃ e, decodeWord s.fetchWord = .error e := by
  constructor
  · intro h
    obtain ⟨-, ⟨e, he, -⟩ | ⟨i, -, hexec⟩⟩ := step_cases h
    · exact ⟨e, he⟩
    · rcases exec_fault_cases hexec with ⟨kind, htakes, ht⟩ | hfault
      · have hrec := congrArg State.fault ht
        simp only [State.takeFault, Option.some.injEq, FaultRecord.mk.injEq] at hrec
        obtain ⟨rfl, -, -⟩ := hrec
        exact absurd htakes (not_takesFault_decodeFault _ i)
      · simp [hf] at hfault
  · rintro ⟨e, he⟩
    simp only [step, hf, he, State.advancePc_takeFault]

/-- Settles O11: the decoder refuses the words of the seven classes, and a step of these alone takes DecodeFault. -/
theorem illegalWordsTakeDecodeFault : Obligations.IllegalWordsTakeDecodeFault := by
  rintro s w hf rfl
  exact exists_decodeWord_eq_error_iff.symm.trans (step_eq_decodeFault_iff hf).symm

end Sys2Proof.Machine
end

section
/-! A running core always answers a next state. -/

namespace Sys2Proof.Machine

/-- Every instruction has a meaning in every state, its faults among them (R82, R225). -/
theorem exec_answers_next (i : Instr) (s : State) : ∃ t, exec i s = .next t := by
  cases i with
  | ret => simp only [exec, execRet]; split <;> exact ⟨_, rfl⟩
  | call nnn => simp only [exec, execCall]; split <;> exact ⟨_, rfl⟩
  | skp x => simp only [exec, execSkp]; split <;> exact ⟨_, rfl⟩
  | sknp x => simp only [exec, execSknp]; split <;> exact ⟨_, rfl⟩
  | ldVxK x => simp only [exec, execLdVxK]; split <;> exact ⟨_, rfl⟩
  | _ => exact ⟨_, rfl⟩

/-- Settles O5: a word that decodes to nothing takes DecodeFault, any other runs its instruction. -/
theorem stepOfARunningCoreAnswersNext : Obligations.StepOfARunningCoreAnswersNext := by
  intro s hf
  cases hd : decodeWord s.fetchWord with
  | error e => exact ⟨_, (step_eq_decodeFault_iff hf).mpr ⟨e, hd⟩⟩
  | ok i => rw [step_of_decodeWord_eq_ok hf hd]; exact exec_answers_next i s.advancePc

end Sys2Proof.Machine
end

section
/-! The assembler (R90): an instruction's line assembles to its word, and numbers out of range are refused. -/

namespace Sys2Proof.Machine

/-! An operand in range is the operand written. -/

@[simp] theorem asmReg_val (x : RegIdx) : asmReg x.val = some x := by
  simp [asmReg]

@[simp] theorem asmImm4_toNat (n : Nibble) : asmImm4 n.toNat = some n := by
  have : n.toNat < 0x10 := n.isLt
  simp [asmImm4, WellFormed.imm4, this]

@[simp] theorem asmImm8_toNat (nn : Byte) : asmImm8 nn.toNat = some nn := by
  have : nn.toNat < 0x100 := nn.isLt
  simp [asmImm8, WellFormed.imm8, this]

@[simp] theorem asmAddr_toNat (nnn : Addr12) : asmAddr nnn.toNat = some nnn := by
  have : nnn.toNat < 0x1000 := nnn.isLt
  simp [asmAddr, WellFormed.addr12, this]

/-- The line of an instruction stands for the instruction, by the form of its operands. -/
theorem assembleInstr_disassemble (i : Instr) : assembleInstr (disassemble i) = some i := by
  cases i <;> simp [disassemble, assembleInstr, asmX, asmXY, asmXNN, asmNNN, asmDraw]

theorem assemble_eq_of_op_ne_dw {line : AsmLine} (h : line.op ≠ .dw) :
    assemble line = (assembleInstr line).map encode := by
  unfold assemble
  split
  · next hop _ => exact absurd hop h
  · rfl

theorem disassemble_op_ne_dw (i : Instr) : (disassemble i).op ≠ .dw := by
  cases i <;> exact AsmOp.noConfusion

/-- Settles O13: an instruction's line is no `DW`, and it stands for the instruction. -/
theorem assembleOfDisassembleIsTheWord : Obligations.AssembleOfDisassembleIsTheWord := by
  intro i
  rw [assemble_eq_of_op_ne_dw (disassemble_op_ne_dw i), assembleInstr_disassemble, Option.map_some]

/-! A form with a number out of range stands for no instruction. -/

variable {a : Nat}

theorem asmNNN_eq_none (c : Addr12 → Instr) (h : a > 0xFFF) : asmNNN c a = none := by
  have hrange : ¬ a < 0x1000 := by omega
  simp [asmNNN, asmAddr, WellFormed.addr12, hrange]

theorem asmXNN_eq_none (c : RegIdx → Byte → Instr) (x : Nat) (h : a > 0xFF) : asmXNN c x a = none := by
  have hrange : ¬ a < 0x100 := by omega
  simp [asmXNN, asmImm8, WellFormed.imm8, hrange]

theorem asmDraw_eq_none (x y : Nat) (h : a > 0xF) : asmDraw x y a = none := by
  have hrange : ¬ a < 0x10 := by omega
  simp [asmDraw, asmImm4, WellFormed.imm4, hrange]

/-- Settles O14: each form with a number reads it through its range check. -/
theorem assemblerRefusesNumbersOutOfRange : Obligations.AssemblerRefusesNumbersOutOfRange := by
  refine ⟨fun a h => ?_, fun x a h => ?_, fun x y a h => ?_⟩
  · simp [assemble, assembleInstr, asmNNN_eq_none _ h]
  · simp [assemble, assembleInstr, asmXNN_eq_none _ x h]
  · simp [assemble, assembleInstr, asmDraw_eq_none x y h]

end Sys2Proof.Machine
end

section
/-! SUPPORT. What `drawSprite` does to the grid and to `VF`, said once: exclusive-or with the sprite's bits, and a
collision where a set bit fell on an on pixel. -/

namespace Sys2Proof.Machine

variable {s u : State} {x y : RegIdx} {n : Nat} {px : Fin 64} {py : Fin 32}

/-- The sprite that DXYN draws in state `s` has a set bit at pixel `(px, py)`: the rows are the bytes from `I` on, the
origin is `(V[x] mod 64, V[y] mod 32)` as the registers are before the draw (R101, D6). -/
def State.drawnBit (s : State) (x y : RegIdx) (n : Nat) (px : Fin 64) (py : Fin 32) : Bool :=
  spriteBit ((s.reg x).toNat % 64) ((s.reg y).toNat % 32) (s.spriteBytes n) px.val py.val

/-- A set bit of the sprite falls on an on pixel of the grid (R101). -/
def State.drawCollides (s : State) (x y : RegIdx) (n : Nat) : Prop :=
  ∃ px py, s.fb.pixel px py = true ∧ s.drawnBit x y n px py = true

theorem exec_drw (x y : RegIdx) (n : Nibble) (s : State) :
    exec (.drw x y n) s = .next (s.drawSprite x y n.toNat) := rfl

theorem State.drawSprite_pixel :
    (s.drawSprite x y n).fb.pixel px py = (s.fb.pixel px py ^^ s.drawnBit x y n px py) :=
  plotRows_pixel _ _ _ (s.fb, false) px py

theorem collisionFlag_eq_one {hit : Bool} : collisionFlag hit = 1 ↔ hit = true := by
  cases hit <;> decide

theorem collisionFlag_eq_zero {hit : Bool} : collisionFlag hit = 0 ↔ ¬ hit = true := by
  cases hit <;> decide

/-- `VF` after a draw is the flag of a collision of the sprite with the grid (R101). -/
theorem State.drawSprite_flag : ∃ hit, (s.drawSprite x y n).reg 15 = collisionFlag hit ∧
    (hit = true ↔ s.drawCollides x y n) := by
  refine ⟨_, (s.reg_drawSprite x y 15 n).trans (if_pos rfl), ?_⟩
  simp only [plotRows_hit, Bool.false_eq_true, false_or, State.drawCollides, State.drawnBit, and_comm]

theorem State.drawSprite_flag_eq_one : (s.drawSprite x y n).reg 15 = 1 ↔ s.drawCollides x y n := by
  obtain ⟨hit, hflag, hhit⟩ := State.drawSprite_flag (s := s) (x := x) (y := y) (n := n)
  rw [hflag, collisionFlag_eq_one, hhit]

theorem State.drawSprite_flag_eq_zero : (s.drawSprite x y n).reg 15 = 0 ↔ ¬ s.drawCollides x y n := by
  obtain ⟨hit, hflag, hhit⟩ := State.drawSprite_flag (s := s) (x := x) (y := y) (n := n)
  rw [hflag, collisionFlag_eq_zero, hhit]

/-- A sprite has no bit left of its origin or above it. -/
theorem State.origin_le_of_drawnBit (h : s.drawnBit x y n px py = true) :
    (s.reg x).toNat % 64 ≤ px.val ∧ (s.reg y).toNat % 32 ≤ py.val := by
  simp only [State.drawnBit, spriteBit, Bool.and_eq_true, decide_eq_true_eq] at h
  obtain ⟨⟨hleft, _, habove, _⟩, _⟩ := h
  exact ⟨hleft, habove⟩

/-- A sprite of no rows has no bit (D7). -/
@[simp] theorem State.drawnBit_zero : s.drawnBit x y 0 px py = false := by
  simp [State.drawnBit, State.spriteBytes, spriteBit]

/-- The sprite is decided by memory, `I` and the two origin registers. -/
theorem State.drawnBit_congr (hmem : SameMemory s u) (hi : u.i = s.i) (hx : u.reg x = s.reg x)
    (hy : u.reg y = s.reg y) : u.drawnBit x y n px py = s.drawnBit x y n px py := by
  have hrows : u.spriteBytes n = s.spriteBytes n := by
    simp only [State.spriteBytes, State.dataAddr, hi, hmem _]
  rw [State.drawnBit, State.drawnBit, hrows, hx, hy]

/-- A draw writes no register but `VF`. -/
theorem State.drawSprite_sameRegsBut : SameRegsBut (fun k => k = 15) s (s.drawSprite x y n) :=
  fun k hk => (s.reg_drawSprite x y k n).trans (if_neg hk)

theorem State.drawSprite_sameRest : SameRest s (s.drawSprite x y n) := by
  simp [SameRest, SameMemory, SameStack, SameTimers, SameInputs]

end Sys2Proof.Machine
end

section
/-! The display instructions: 00E0 and DXYN (40_display R100 to R104). -/

namespace Sys2Proof.Machine

/-- Settles O35: the cleared framebuffer has no pixel on, and CLS updates `FB` and `REDRAW` only. -/
theorem clsClearsTheFramebuffer : Obligations.ClsClearsTheFramebuffer := by
  intro s
  have hrest : SameRest s { s with fb := Framebuffer.clear, redraw := true } :=
    ⟨fun _ => rfl, ⟨rfl, rfl⟩, ⟨rfl, rfl⟩, ⟨rfl, rfl, rfl⟩, rfl⟩
  exact ⟨_, rfl, Framebuffer.pixel_clear, rfl, fun _ _ => rfl, rfl, rfl, hrest⟩

/-- Settles O36: the rows are the bytes from `I` on, drawn as an exclusive-or and with `VF` for a collision. -/
theorem drwDrawsTheSprite : Obligations.DrwDrawsTheSprite := by
  intro x y n s
  refine ⟨_, s.spriteBytes n.toNat, exec_drw x y n s, s.spriteBytes_length _, fun r h => ?_,
    ⟨fun _ _ => State.drawSprite_pixel, State.drawSprite_flag_eq_one.2, fun hoff => ?_⟩,
    s.drawSprite_redraw x y _, State.drawSprite_sameRegsBut, s.drawSprite_i x y _, s.drawSprite_pc x y _,
    State.drawSprite_sameRest⟩
  · exact s.spriteBytes_getElem _ r (by simpa using h)
  · refine State.drawSprite_flag_eq_zero.2 ?_
    rintro ⟨px, py, hon, hbit⟩
    exact Bool.false_ne_true ((hoff px py hon).symm.trans hbit)

/-- Settles O37: the sprite has bits only from the origin to the right and down, so nothing else changes or collides. -/
theorem drwClipsAtTheEdges : Obligations.DrwClipsAtTheEdges := by
  intro x y n s t h
  cases h
  refine ⟨fun px py houtside => ?_, fun hoff => State.drawSprite_flag_eq_zero.2 ?_⟩
  · have hbit : s.drawnBit x y n.toNat px py = false := by
      rw [← Bool.not_eq_true]
      intro hbit
      have := State.origin_le_of_drawnBit hbit
      omega
    rw [State.drawSprite_pixel, hbit, Bool.xor_false]
  · rintro ⟨px, py, hon, hbit⟩
    obtain ⟨hx, hy⟩ := State.origin_le_of_drawnBit hbit
    exact Bool.false_ne_true ((hoff px py hx hy).symm.trans hon)

/-- Settles O38: both draws have the same bits, so their exclusive-or cancels, and a bit that falls on an on pixel
after the first draw is one that turned it on. -/
theorem drawingTwiceRestores : Obligations.DrawingTwiceRestores := by
  intro x y n s t u w hst hfb hmem hi hx hy huw
  cases hst
  cases huw
  have hbit (px py) : u.drawnBit x y n.toNat px py = s.drawnBit x y n.toNat px py :=
    State.drawnBit_congr hmem hi hx hy
  constructor
  · refine Framebuffer.ext_pixel fun px py => ?_
    rw [State.drawSprite_pixel, hbit, hfb, State.drawSprite_pixel, Bool.xor_assoc, Bool.xor_self, Bool.xor_false]
  · refine State.drawSprite_flag_eq_one.trans (exists_congr fun px => exists_congr fun py => ?_)
    rw [hbit, hfb, State.drawSprite_pixel]
    cases s.fb.pixel px py <;> simp

/-- Settles O39: a draw of no rows has no bit to change a pixel or to collide. -/
theorem everyDrawSetsRedraw : Obligations.EveryDrawSetsRedraw := by
  intro x y n s
  refine ⟨_, exec_drw x y n s, s.drawSprite_redraw x y _, ?_⟩
  rintro rfl
  have hnone : ¬ s.drawCollides x y 0 := by simp [State.drawCollides]
  exact ⟨Framebuffer.ext_pixel fun px py => by simp [State.drawSprite_pixel], State.drawSprite_flag_eq_zero.2 hnone⟩

end Sys2Proof.Machine
end

section
/-! SUPPORT. What a jump, a call, a return and a skip answer, said once: the updated state of each, and what a write of
`PC` or of the call stack leaves unchanged. -/

namespace Sys2Proof.Machine

variable {s : State} {ins : Instr}

/-- A 12-bit target is widened by zeros, never wrapped (R9). -/
@[simp] theorem zext16Addr_toNat (nnn : Addr12) : (zext16Addr nnn).toNat = nnn.toNat :=
  BitVec.toNat_setWidth_of_le (by decide)

/-! ### What stays the same -/

/-- An update of `PC`, `SP` and the stack leaves the rest of the state alone. -/
theorem State.onlyPcAndStack_update (s : State) (pc : Word) (sp : Fin 17) (stack : Vector Word 16) :
    OnlyPcAndStack s { s with pc := pc, sp := sp, stack := stack } :=
  ⟨fun _ _ => rfl, rfl, ⟨rfl, rfl⟩, fun _ => rfl, ⟨rfl, rfl⟩, ⟨rfl, rfl, rfl⟩, rfl⟩

theorem State.onlyPc_setPc (s : State) (w : Word) : OnlyPc s (s.setPc w) :=
  ⟨fun _ _ => rfl, rfl, ⟨rfl, rfl⟩, fun _ => rfl, ⟨rfl, rfl⟩, ⟨rfl, rfl⟩, ⟨rfl, rfl, rfl⟩, rfl⟩

/-! ### Call and return -/

theorem exec_call_of_lt (nnn : Addr12) (h : s.sp.val < 16) : exec (.call nnn) s = .next
    { s with pc := zext16Addr nnn, sp := ⟨s.sp.val + 1, Nat.succ_lt_succ h⟩,
             stack := s.stack.set s.sp.val s.pc h } := by
  rw [exec, execCall, s.push_eq_some.2 ⟨h, rfl⟩]
  rfl

theorem exec_call_of_full (nnn : Addr12) (h : s.sp.val = 16) :
    exec (.call nnn) s = .next (s.takeFault .stackOverflow (encode (.call nnn))) := by
  rw [exec, execCall, s.push_eq_none.2 h]

theorem exec_ret_of_eq_succ (k : Fin 16) (h : s.sp.val = k.val + 1) :
    exec .ret s = .next { s with pc := s.stack.get k, sp := k.castSucc } := by
  rw [exec, execRet, s.pop_eq_some.2 ⟨k, k.isLt, h, rfl, rfl⟩]
  rfl

theorem exec_ret_of_empty (h : s.sp.val = 0) :
    exec .ret s = .next (s.takeFault .stackUnderflow (encode .ret)) := by
  rw [exec, execRet, s.pop_eq_none.2 h]

/-! ### Skips -/

theorem State.onlyPc_skipIf (s : State) (c : Bool) : OnlyPc s (s.skipIf c) := by
  cases c with
  | true => exact s.onlyPc_setPc (s.pc + 2)
  | false => exact s.onlyPc_setPc s.pc

/-- An instruction that is `skipIf` of a test for the condition skips when the condition holds (R128). -/
theorem skipsWhen_of_exec_eq_skipIf {pre cond : State → Prop} {test : State → Bool}
    (hexec : ∀ s, pre s → exec ins s = .next (s.skipIf (test s))) (htest : ∀ s, test s = true ↔ cond s) :
    SkipsWhen ins pre cond := by
  intro s hs
  refine ⟨_, hexec s hs, fun hc => ?_, fun hc => ?_, s.onlyPc_skipIf _⟩
  · rw [(htest s).2 hc]
    exact BitVec.toNat_add s.pc 2
  · rw [Bool.eq_false_iff.2 (mt (htest s).1 hc)]
    rfl

end Sys2Proof.Machine
end

section
/-! Control flow: jump, call, return and the register skips (41_control_flow R120 to R128). -/

namespace Sys2Proof.Machine

/-- Settles O40: JP is a write of `PC`, and its target fits. -/
theorem jpSetsPc : Obligations.JpSetsPc :=
  fun nnn s => ⟨_, rfl, zext16Addr_toNat nnn, s.onlyPc_setPc _⟩

/-- Settles O41: below 16 the call pushes, and the pushed word is the entry at the old `SP`; at 16 it takes its fault. -/
theorem callPushesOrOverflows : Obligations.CallPushesOrOverflows := by
  refine fun nnn s => ⟨fun hlt => ?_, exec_call_of_full nnn⟩
  refine ⟨_, exec_call_of_lt nnn hlt, zext16Addr_toNat nnn, rfl, fun k => ?_, s.onlyPcAndStack_update _ _ _⟩
  simp only [Vector.get_eq_getElem, Vector.getElem_set, eq_comm]

/-- Settles O42: with entries in use the return pops the topmost, and with none it takes its fault. -/
theorem retPopsOrUnderflows : Obligations.RetPopsOrUnderflows :=
  fun s => ⟨fun k hk => ⟨_, exec_ret_of_eq_succ k hk, rfl, rfl, rfl, s.onlyPcAndStack_update _ _ _⟩,
    exec_ret_of_empty⟩

/-- Settles O43: the call leaves the address after it on top of the stack, and the return pops that entry. -/
theorem returnComesBackAfterTheCall : Obligations.ReturnComesBackAfterTheCall := by
  intro nnn s t u hlt hcall husp hustack
  obtain ⟨t', hcall', -, htsp, hentry, -⟩ := (callPushesOrOverflows nnn s).1 hlt
  obtain rfl : t' = t := Host.Outcome.next.inj (hcall'.symm.trans hcall)
  have hpushed : u.stack.get ⟨s.sp.val, hlt⟩ = s.pc := by rw [hustack, hentry, if_pos rfl]
  have husp' : u.sp.val = s.sp.val + 1 := by rw [husp, htsp]
  obtain ⟨w, hret, hwsp, hwpc, -, -⟩ := (retPopsOrUnderflows u).1 ⟨s.sp.val, hlt⟩ husp'
  exact ⟨w, hret, hwpc.trans hpushed, Fin.ext hwsp⟩

/-- Settles O44: each of the four is `skipIf` of the Boolean test for its condition. -/
theorem registerSkips : Obligations.RegisterSkips :=
  ⟨fun _ _ => skipsWhen_of_exec_eq_skipIf (fun _ _ => rfl) fun _ => beq_iff_eq,
   fun _ _ => skipsWhen_of_exec_eq_skipIf (fun _ _ => rfl) fun _ => bne_iff_ne,
   fun _ _ => skipsWhen_of_exec_eq_skipIf (fun _ _ => rfl) fun _ => beq_iff_eq,
   fun _ _ => skipsWhen_of_exec_eq_skipIf (fun _ _ => rfl) fun _ => bne_iff_ne⟩

end Sys2Proof.Machine
end

section
/-! SUPPORT. What a register write and a flag followed by a result do to the state, said once: the values of the
registers, the frame, and the flags as numbers. -/

namespace Sys2Proof.Machine

variable {s t : State} {x y : RegIdx} {g : Byte}

/-! ### What stays the same -/

/-- An update of the general registers that keeps those not named leaves the rest of the state alone. -/
theorem State.onlyRegs_update {names : RegIdx → Prop} {v : Vector Byte 16}
    (h : ∀ k, ¬ names k → v.get k = s.v.get k) : OnlyRegs names s { s with v := v } :=
  ⟨h, rfl, rfl, ⟨rfl, rfl⟩, fun _ => rfl, ⟨rfl, rfl⟩, ⟨rfl, rfl⟩, ⟨rfl, rfl, rfl⟩, rfl⟩

theorem State.onlyRegs_setReg (s : State) (x : RegIdx) (b : Byte) : OnlyRegs (fun k => k = x) s (s.setReg x b) :=
  State.onlyRegs_update fun _ hk => s.reg_setReg_ne b hk

theorem State.onlyRegs_flagThenResult (s : State) (g : Byte) (x : RegIdx) (f : State → Byte) :
    OnlyRegs (fun k => k = x ∨ k = 15) s (s.flagThenResult g x f) := by
  refine State.onlyRegs_update fun k hk => (s.reg_flagThenResult g x k f).trans ?_
  obtain ⟨hx, hVF⟩ := not_or.1 hk
  exact (if_neg hx).trans (if_neg hVF)

/-- An instruction that is a write of `V[x]` writes the number of the byte it computes, and nothing else. -/
theorem writesOneReg_of_exec_eq_setReg {ins : Instr} {byte : State → Byte} {value : State → Nat}
    (hexec : ∀ s, exec ins s = .next (s.setReg x (byte s))) (hvalue : ∀ s, (byte s).toNat = value s) :
    WritesOneReg ins x value :=
  fun s => ⟨_, hexec s, by rw [State.reg_setReg_self, hvalue], s.onlyRegs_setReg x _⟩

/-! ### Flag, then result (R140, D5) -/

theorem State.reg_setFlag_ne (hx : x ≠ 15) (g : Byte) : (s.setFlag g).reg x = s.reg x :=
  s.reg_setReg_ne g hx

theorem State.reg_setFlag_fifteen (g : Byte) : (s.setFlag g).reg 15 = g :=
  s.reg_setFlag_self g

/-- The result is computed from the registers as the flag's write left them, `VF` included. -/
theorem State.reg_flagThenResult_self (g : Byte) (x : RegIdx) (f : State → Byte) :
    (s.flagThenResult g x f).reg x = f (s.setFlag g) :=
  (s.setFlag g).reg_setReg_self x _

/-- The flag stays in `VF` unless the result replaces it. -/
theorem State.reg_flagThenResult_flag (hx : x ≠ 15) (g : Byte) (f : State → Byte) :
    (s.flagThenResult g x f).reg 15 = g :=
  (s.reg_flagThenResult g x 15 f).trans ((if_neg hx.symm).trans (if_pos rfl))

/-- The registers after `VF <- g; V[x] <- op(V[x], V[y])`, as numbers: an operand whose number is 15 is read as the
flag, and the result replaces the flag when `x` is 15. -/
theorem State.flagThenBinary_cases {op : Byte → Byte → Byte} {value : Nat → Nat → Nat}
    (hop : ∀ a b, (op a b).toNat = value a.toNat b.toNat)
    (ht : t = s.flagThenResult g x fun u => op (u.reg x) (u.reg y)) :
    (x ≠ 15 → y ≠ 15 →
      (t.reg x).toNat = value (s.reg x).toNat (s.reg y).toNat ∧ (t.reg 15).toNat = g.toNat) ∧
    (x = 15 → y ≠ 15 → (t.reg 15).toNat = value g.toNat (s.reg y).toNat) ∧
    (x ≠ 15 → y = 15 → (t.reg x).toNat = value (s.reg x).toNat g.toNat ∧ (t.reg 15).toNat = g.toNat) ∧
    (x = 15 → y = 15 → (t.reg 15).toNat = value g.toNat g.toNat) := by
  have hresult : (t.reg x).toNat = value ((s.setFlag g).reg x).toNat ((s.setFlag g).reg y).toNat := by
    rw [ht, State.reg_flagThenResult_self, hop]
  have hflag (hx : x ≠ 15) : t.reg 15 = g := by rw [ht, State.reg_flagThenResult_flag hx]
  refine ⟨fun hx hy => ⟨?_, by rw [hflag hx]⟩, ?_, fun hx hy => ⟨?_, by rw [hflag hx]⟩, ?_⟩
  · rw [hresult, State.reg_setFlag_ne hx, State.reg_setFlag_ne hy]
  · rintro rfl hy
    rw [hresult, State.reg_setFlag_fifteen, State.reg_setFlag_ne hy]
  · rw [hresult, State.reg_setFlag_ne hx, hy, State.reg_setFlag_fifteen]
  · rintro rfl rfl
    rw [hresult, State.reg_setFlag_fifteen]

/-- The registers after `VF <- g; V[x] <- op(V[x])`, as numbers, when `op` shifts all of the flag out. -/
theorem State.flagThenShift_cases {op : Byte → Byte} (hop : (op g).toNat = 0)
    (ht : t = s.flagThenResult g x fun u => op (u.reg x)) :
    (x ≠ 15 → (t.reg x).toNat = (op (s.reg x)).toNat ∧ (t.reg 15).toNat = g.toNat) ∧
    (x = 15 → (t.reg 15).toNat = 0) := by
  subst ht
  refine ⟨fun hx => ⟨?_, ?_⟩, ?_⟩
  · rw [State.reg_flagThenResult_self, State.reg_setFlag_ne hx]
  · rw [State.reg_flagThenResult_flag hx]
  · rintro rfl
    rw [State.reg_flagThenResult_self, State.reg_setFlag_fifteen, hop]

/-! ### The flags, sums and shifts as numbers -/

theorem carryFlag_toNat (a b : Byte) : (carryFlag a b).toNat = if a.toNat + b.toNat > 255 then 1 else 0 :=
  apply_ite BitVec.toNat _ _ _

theorem greaterFlag_toNat (a b : Byte) : (greaterFlag a b).toNat = if a.toNat > b.toNat then 1 else 0 :=
  apply_ite BitVec.toNat _ _ _

theorem lowBitFlag_toNat (a : Byte) : (lowBitFlag a).toNat = a.toNat % 2 :=
  Nat.and_one_is_mod a.toNat

theorem highBitFlag_toNat (a : Byte) : (highBitFlag a).toNat = if a.toNat ≥ 0x80 then 0x80 else 0 := by
  have hbit : a.getLsbD 7 = decide (0x80 ≤ a.toNat) := a.msb_eq_getLsbD_last.symm.trans a.msb_eq_decide
  have hflag : highBitFlag a = if a.getLsbD 7 then 0x80#8 else 0#8 := BitVec.and_twoPow a 7
  rw [hflag, hbit, apply_ite BitVec.toNat]
  simp

/-- A difference mod 256, taken without a negative number (R148). -/
theorem byte_toNat_sub (a b : Byte) : (a - b).toNat = (a.toNat + 256 - b.toNat) % 256 := by
  have := b.isLt
  rw [BitVec.toNat_sub]
  congr 1
  omega

theorem byte_toNat_shiftRight_one (a : Byte) : (a >>> 1).toNat = a.toNat / 2 := by
  rw [BitVec.toNat_ushiftRight, Nat.shiftRight_one]

theorem byte_toNat_shiftLeft_one (a : Byte) : (a <<< 1).toNat = a.toNat * 2 % 256 := by
  rw [BitVec.toNat_shiftLeft, Nat.shiftLeft_eq, pow_one]

end Sys2Proof.Machine
end

section
/-! Register loads, logic, arithmetic, shifts and the random byte (42_alu R140 to R152, 44_keypad_timers R192). -/

namespace Sys2Proof.Machine

/-- Settles O20: each is a write of `V[x]`, of an immediate, a sum, a register or `DT`. -/
theorem loadsWriteOneRegister : Obligations.LoadsWriteOneRegister :=
  ⟨fun _ _ => writesOneReg_of_exec_eq_setReg (fun _ => rfl) fun _ => rfl,
   fun _ _ => writesOneReg_of_exec_eq_setReg (fun _ => rfl) fun _ => BitVec.toNat_add _ _,
   fun _ _ => writesOneReg_of_exec_eq_setReg (fun _ => rfl) fun _ => rfl,
   fun _ => writesOneReg_of_exec_eq_setReg (fun _ => rfl) fun _ => rfl⟩

/-- Settles O21: each is a write of `V[x]`, of the bitwise result. -/
theorem logicWritesOneRegister : Obligations.LogicWritesOneRegister :=
  ⟨fun _ _ => writesOneReg_of_exec_eq_setReg (fun _ => rfl) fun _ => BitVec.toNat_or _ _,
   fun _ _ => writesOneReg_of_exec_eq_setReg (fun _ => rfl) fun _ => BitVec.toNat_and _ _,
   fun _ _ => writesOneReg_of_exec_eq_setReg (fun _ => rfl) fun _ => BitVec.toNat_xor _ _⟩

/-- Settles O22: the sum mod 256 is taken after the carry is in `VF`; with both operands `VF` it is twice the carry. -/
theorem addSetsCarryThenSum : Obligations.AddSetsCarryThenSum := by
  intro x y s
  refine ⟨_, rfl, ?_, s.onlyRegs_flagThenResult _ x _⟩
  simp only [← carryFlag_toNat, two_mul]
  exact State.flagThenBinary_cases (value := fun a b => (a + b) % 256) BitVec.toNat_add rfl

/-- Settles O23: the difference mod 256 is taken after the comparison is in `VF`; with both operands `VF` it is 0. -/
theorem subSetsGreaterThenDifference : Obligations.SubSetsGreaterThenDifference := by
  intro x y s
  refine ⟨_, rfl, ?_, s.onlyRegs_flagThenResult _ x _⟩
  simp only [← greaterFlag_toNat]
  obtain ⟨hneither, hx, hy, hboth⟩ := State.flagThenBinary_cases (s := s) (x := x) (y := y)
    (g := greaterFlag (s.reg x) (s.reg y)) (value := fun a b => (a + 256 - b) % 256) byte_toNat_sub rfl
  refine ⟨hneither, hx, hy, fun h15 h15' => (hboth h15 h15').trans ?_⟩
  rw [Nat.add_sub_cancel_left, Nat.mod_self]

/-- Settles O24: the flag is one bit, so the shift right takes all of it out of `VF`. -/
theorem shrSetsLowBitThenShifts : Obligations.ShrSetsLowBitThenShifts := by
  intro x y s
  have hout : (lowBitFlag (s.reg x) >>> 1).toNat = 0 := by
    rw [byte_toNat_shiftRight_one, lowBitFlag_toNat]
    omega
  obtain ⟨hne, hVF⟩ := State.flagThenShift_cases (s := s) (x := x) (op := (· >>> 1)) hout rfl
  rw [byte_toNat_shiftRight_one, lowBitFlag_toNat] at hne
  exact ⟨_, rfl, hne, hVF, s.onlyRegs_flagThenResult _ x _⟩

/-- Settles O25: the flag is 0x80 or 0, so the shift left takes all of it out of `VF`. -/
theorem shlSetsHighBitThenShifts : Obligations.ShlSetsHighBitThenShifts := by
  intro x y s
  have hout : (highBitFlag (s.reg x) <<< 1).toNat = 0 := by
    rw [byte_toNat_shiftLeft_one, highBitFlag_toNat]
    split <;> rfl
  obtain ⟨hne, hVF⟩ := State.flagThenShift_cases (s := s) (x := x) (op := (· <<< 1)) hout rfl
  rw [byte_toNat_shiftLeft_one, highBitFlag_toNat] at hne
  exact ⟨_, rfl, hne, hVF, s.onlyRegs_flagThenResult _ x _⟩

/-- Settles O26: after the draw, RND is a write of `V[x]`, of a byte without a bit outside the mask. -/
theorem rndMasksOneFreeByte : Obligations.RndMasksOneFreeByte := by
  intro x nn s
  obtain ⟨hregs, hi, hpc, hdisplay, hmem, hstack, htimers, hinputs, hdraws⟩ :=
    s.rand8.2.onlyRegs_setReg x (s.rand8.1 &&& nn)
  have hreg : (s.rand8.2.setReg x (s.rand8.1 &&& nn)).reg x = Config.rand8 s.draws &&& nn :=
    State.reg_setReg_self _ x _
  refine ⟨_, rfl, hreg, ?_, ?_, hregs, hi, hpc, hdisplay, hmem, hstack, htimers, hinputs, hdraws⟩
  · rintro rfl
    exact hreg.trans BitVec.and_zero
  · rw [hreg, BitVec.and_assoc, BitVec.and_not_self]
    exact BitVec.and_zero

end Sys2Proof.Machine
end

section
/-! SUPPORT. What a write of `I`, a store of bytes and a load of registers do to the state, said once: the frame of each,
the new `I` as a number, and the bytes and registers they leave (43_index_memory R170 to R176). -/

namespace Sys2Proof.Machine

variable {s t : State} {x : RegIdx}

/-! ### Writing `I` -/

theorem State.onlyI_setI (s : State) (w : Word) : OnlyI s (s.setI w) :=
  ⟨fun _ _ => rfl, rfl, ⟨rfl, rfl⟩, fun _ => rfl, ⟨rfl, rfl⟩, ⟨rfl, rfl⟩, ⟨rfl, rfl, rfl⟩, rfl⟩

/-- An instruction that is a write of `I` writes the number of the word it computes, and nothing else. -/
theorem writesOnlyI_of_exec_eq_setI {ins : Instr} {word : State → Word} {value : State → Nat}
    (hexec : ∀ s, exec ins s = .next (s.setI (word s))) (hvalue : ∀ s, (word s).toNat = value s) :
    WritesOnlyI ins value :=
  fun s => ⟨_, hexec s, hvalue s, s.onlyI_setI _⟩

/-- The font address is at most 1275, so it never wraps (R172). -/
theorem glyphAddr_toNat (b : Byte) : (glyphAddr b).toNat = b.toNat * 5 := by
  have := b.isLt
  exact Nat.mod_eq_of_lt (by omega)

theorem zext16Byte_toNat (b : Byte) : (zext16Byte b).toNat = b.toNat :=
  BitVec.toNat_setWidth_of_le (by decide)

theorem State.postIncI_toNat (s : State) (x : RegIdx) : (s.postIncI x).toNat = (s.i.toNat + x.val + 1) % 65536 := by
  rw [State.postIncI, regCount, BitVec.toNat_add, BitVec.toNat_ofNat, Nat.add_mod_mod, ← Nat.add_assoc]

/-! ### Storing bytes -/

/-- A multi-byte store may change the stored bytes and nothing else. -/
theorem State.onlyMemoryAndI_storeBytes (s : State) (a : Nat) (bs : List Byte) :
    OnlyMemoryAndI a bs.length s (s.storeBytes a bs) :=
  ⟨fun k _ => s.storeBytes_reg a bs k, s.storeBytes_pc a bs, ⟨s.storeBytes_fb a bs, s.storeBytes_redraw a bs⟩,
    fun b hb => s.byteAt_storeBytes_outside a b bs hb, ⟨s.storeBytes_sp a bs, s.storeBytes_stack a bs⟩,
    ⟨s.storeBytes_dt a bs, s.storeBytes_st a bs⟩,
    ⟨s.storeBytes_keys a bs, s.storeBytes_fault a bs, s.storeBytes_font a bs⟩, s.storeBytes_draws a bs⟩

/-- A write of `I` keeps a frame that lets `I` differ. -/
theorem OnlyMemoryAndI.setI {a len : Nat} (h : OnlyMemoryAndI a len s t) (w : Word) :
    OnlyMemoryAndI a len s (t.setI w) := h

theorem lt_regCount_iff {k : RegIdx} : k.val < regCount x ↔ k ≤ x :=
  Nat.lt_succ_iff

/-- Storing `V[0]` to `V[x]` from `a` on leaves `V[k]` at `a + k` (R174). -/
theorem State.byteAt_storeBytes_lowRegs (s : State) (a : Nat) {k : RegIdx} (hk : k ≤ x) :
    (s.storeBytes a (s.lowRegs x)).byteAt (a + k.val) = s.reg k := by
  have hlen := s.lowRegs_length x
  have hmax : regCount x ≤ 16 := x.isLt
  have hkl : k.val < (s.lowRegs x).length := hlen ▸ lt_regCount_iff.2 hk
  rw [s.byteAt_storeBytes a k.val _ (by omega) hkl, State.getElem_lowRegs hkl k.isLt]

/-- The digits as numbers: each is below 10, so its byte holds it (R173). -/
theorem decimalDigits_map_toNat (b : Byte) :
    (decimalDigits b).map BitVec.toNat = [b.toNat / 100, b.toNat / 10 % 10, b.toNat % 10] := by
  have := b.isLt
  simp (disch := omega) only [decimalDigits, List.map_cons, List.map_nil, BitVec.toNat_ofNat, Nat.mod_eq_of_lt]

/-- Storing the digits of a byte from `a` on leaves each digit's number at its place (R173). -/
theorem State.byteAt_storeBytes_decimalDigits (s : State) (a : Nat) (b : Byte) {k : Nat} (hk : k < 3) :
    ((s.storeBytes a (decimalDigits b)).byteAt (a + k)).toNat =
      [b.toNat / 100, b.toNat / 10 % 10, b.toNat % 10][k] := by
  rw [s.byteAt_storeBytes a k (decimalDigits b) (by simp) hk]
  simp only [← decimalDigits_map_toNat]
  exact (List.getElem_map BitVec.toNat).symm

/-! ### Loading registers -/

/-- Loading `V[0]` to `V[x]` from `a` on leaves the byte at `a + k` in `V[k]` (R175). -/
theorem State.reg_loadRegs_of_le (s : State) (a : Nat) {k : RegIdx} (hk : k ≤ x) :
    (s.loadRegs a (regCount x)).reg k = s.byteAt (a + k.val) :=
  (s.reg_loadRegs a _ k).trans (if_pos (lt_regCount_iff.2 hk))

theorem State.sameRegsBut_loadRegs (s : State) (a : Nat) (x : RegIdx) :
    SameRegsBut (fun k => k ≤ x) s (s.loadRegs a (regCount x)) :=
  fun k hk => (s.reg_loadRegs a _ k).trans (if_neg (mt lt_regCount_iff.1 hk))

theorem State.sameRest_loadRegs (s : State) (a n : Nat) : SameRest s (s.loadRegs a n) :=
  ⟨s.loadRegs_byteAt a n, ⟨s.loadRegs_sp a n, s.loadRegs_stack a n⟩, ⟨s.loadRegs_dt a n, s.loadRegs_st a n⟩,
    ⟨s.loadRegs_keys a n, s.loadRegs_fault a n, s.loadRegs_font a n⟩, s.loadRegs_draws a n⟩

end Sys2Proof.Machine
end

section
/-! The index register and the loads and stores through it (43_index_memory R170 to R176). -/

namespace Sys2Proof.Machine

/-- Settles O28: each is a write of `I`, of a word that holds its number without wrapping. -/
theorem indexLoadsWriteOnlyI : Obligations.IndexLoadsWriteOnlyI :=
  ⟨fun nnn => writesOnlyI_of_exec_eq_setI (fun _ => rfl) fun _ => zext16Addr_toNat nnn,
   fun x => writesOnlyI_of_exec_eq_setI (fun _ => rfl) fun s => glyphAddr_toNat (s.reg x)⟩

/-- Settles O29: a write of `I`, of a 16-bit sum whose second operand is the register's own number. -/
theorem indexAddWritesOnlyI : Obligations.IndexAddWritesOnlyI :=
  fun x => writesOnlyI_of_exec_eq_setI (fun _ => rfl) fun s => by rw [BitVec.toNat_add, zext16Byte_toNat]

/-- Settles O30: a store of the three digits of `V[x]`, each read back from its place. -/
theorem bcdStoresThreeDigits : Obligations.BcdStoresThreeDigits := by
  intro x s
  have hdigit {k : Nat} (hk : k < 3) := s.byteAt_storeBytes_decimalDigits s.i.toNat (s.reg x) hk
  exact ⟨_, rfl, hdigit (k := 0) (by decide), hdigit (k := 1) (by decide), hdigit (k := 2) (by decide),
    s.storeBytes_i _ _, s.onlyMemoryAndI_storeBytes _ _⟩

/-- Settles O31: a store of `V[0]` to `V[x]`, then a write of `I`, which moves no byte. -/
theorem storeRegistersToMemory : Obligations.StoreRegistersToMemory := by
  intro x s
  have honly := s.onlyMemoryAndI_storeBytes s.i.toNat (s.lowRegs x)
  rw [State.lowRegs_length] at honly
  exact ⟨_, rfl, fun k hk => s.byteAt_storeBytes_lowRegs _ hk, s.postIncI_toNat x, honly.setI _⟩

/-- Settles O32: a load of `V[0]` to `V[x]`, then a write of `I`, which changes no register. -/
theorem loadRegistersFromMemory : Obligations.LoadRegistersFromMemory :=
  fun x s => ⟨_, rfl, fun _ hk => s.reg_loadRegs_of_le _ hk, s.postIncI_toNat x, s.sameRegsBut_loadRegs _ x,
    s.loadRegs_pc _ _, ⟨s.loadRegs_fb _ _, s.loadRegs_redraw _ _⟩, s.sameRest_loadRegs _ _⟩

/-- Settles O33: FX65 reads the bytes at the addresses where FX55 left the registers, and both advance `I` alike. -/
theorem storeThenLoadGivesTheRegistersBack : Obligations.StoreThenLoadGivesTheRegistersBack := by
  intro x s t u hstore hmem hui
  obtain ⟨t', hstore', hbyte, hti, -⟩ := storeRegistersToMemory x s
  obtain rfl : t' = t := Host.Outcome.next.inj (hstore'.symm.trans hstore)
  obtain ⟨w, hload, hreg, hwi, -⟩ := loadRegistersFromMemory x u
  rw [hui] at hreg hwi
  refine ⟨w, hload, fun k hk => ?_, BitVec.eq_of_toNat_eq (hwi.trans hti.symm)⟩
  calc w.reg k = u.byteAt (s.i.toNat + k.val) := hreg k hk
    _ = t'.byteAt (s.i.toNat + k.val) := hmem _
    _ = s.reg k := hbyte k hk

end Sys2Proof.Machine
end

section
/-! SUPPORT. What a key test, a wait for a key and a write of the timers do, said once: the updated state of each branch
of the keypad instructions, `PC` as a number after the step back, and what a write of the timers leaves unchanged. -/

namespace Sys2Proof.Machine

variable {s : State} {x : RegIdx} {k : Fin 16}

/-! ### EX9E and EXA1 -/

theorem exec_skp_of_key (hk : (s.reg x).toNat = k.val) : exec (.skp x) s = .next (s.skipIf (s.keyDown k)) := by
  rw [exec, execSkp, keyOperand_eq_some.2 hk]

theorem exec_sknp_of_key (hk : (s.reg x).toNat = k.val) : exec (.sknp x) s = .next (s.skipIf (!s.keyDown k)) := by
  rw [exec, execSknp, keyOperand_eq_some.2 hk]

theorem exec_skp_of_gt (h : (s.reg x).toNat > 15) :
    exec (.skp x) s = .next (s.takeFault .keyIndexFault (encode (.skp x))) := by
  rw [exec, execSkp, keyOperand_eq_none.2 h]

theorem exec_sknp_of_gt (h : (s.reg x).toNat > 15) :
    exec (.sknp x) s = .next (s.takeFault .keyIndexFault (encode (.sknp x))) := by
  rw [exec, execSknp, keyOperand_eq_none.2 h]

/-! ### FX0A -/

theorem exec_ldVxK_of_highest (hdown : s.keyDown k = true) (habove : ∀ j, k < j → s.keyDown j = false) :
    exec (.ldVxK x) s = .next (s.setReg x (BitVec.ofNat 8 k.val)) := by
  rw [exec, execLdVxK, s.highestKey_eq_some.2 ⟨hdown, habove⟩]

theorem exec_ldVxK_of_none (hup : ∀ k, s.keyDown k = false) : exec (.ldVxK x) s = .next s.rewindPc := by
  rw [exec, execLdVxK, s.highestKey_eq_none.2 hup]

/-- A key's index fits in a byte. -/
theorem keyByte_toNat (k : Fin 16) : (BitVec.ofNat 8 k.val).toNat = k.val :=
  Nat.mod_eq_of_lt (k.isLt.trans (by decide))

/-- The step back, taken without a negative number (R193). -/
theorem State.rewindPc_pc_toNat (s : State) : s.rewindPc.pc.toNat = (s.pc.toNat + 65536 - 2) % 65536 := by
  have hsub : s.rewindPc.pc.toNat = (65536 - 2 + s.pc.toNat) % 65536 := BitVec.toNat_sub s.pc 2
  rw [hsub]
  congr 1
  omega

/-! ### Timers -/

/-- An update of the timers leaves the rest of the state alone. -/
theorem State.onlyTimers_update (s : State) (dt st : Byte) : OnlyTimers s { s with dt := dt, st := st } :=
  ⟨fun _ _ => rfl, rfl, rfl, ⟨rfl, rfl⟩, fun _ => rfl, ⟨rfl, rfl⟩, ⟨rfl, rfl, rfl⟩, rfl⟩

end Sys2Proof.Machine
end

section
/-! Keypad and timer instructions (44_keypad_timers R190 to R195). -/

namespace Sys2Proof.Machine

/-- Settles O45: with a key named, each is `skipIf` of the test on its level; above 15 each takes its fault, whose state
is the one stated. -/
theorem keySkipsOrKeyIndexFault : Obligations.KeySkipsOrKeyIndexFault :=
  ⟨fun _ _ => ⟨skipsWhen_of_exec_eq_skipIf (fun _ => exec_skp_of_key) fun _ => Iff.rfl,
    skipsWhen_of_exec_eq_skipIf (fun _ => exec_sknp_of_key) fun _ => .of_eq (Bool.not_eq_true' _)⟩,
   fun _ _ h => ⟨exec_skp_of_gt h, exec_sknp_of_gt h⟩⟩

/-- Settles O46: the scan finds the highest pressed key, whose index goes to `V[x]`, or none, and `PC` steps back. -/
theorem waitKeyTakesTheHighestKey : Obligations.WaitKeyTakesTheHighestKey := by
  refine fun x s => ⟨fun k hdown habove => ?_, fun hup => ?_⟩
  · refine ⟨_, exec_ldVxK_of_highest hdown habove, ?_, s.onlyRegs_setReg x _⟩
    rw [State.reg_setReg_self, keyByte_toNat]
  · exact ⟨_, exec_ldVxK_of_none hup, s.rewindPc_pc_toNat, s.onlyPc_setPc (s.pc - 2)⟩

/-- Settles O48: each is an update of the timers that gives one of them `V[x]` and the other its old value. -/
theorem timerLoads : Obligations.TimerLoads :=
  fun x s => ⟨⟨_, rfl, rfl, rfl, s.onlyTimers_update (s.reg x) s.st⟩,
    ⟨_, rfl, rfl, rfl, s.onlyTimers_update s.dt (s.reg x)⟩⟩

end Sys2Proof.Machine
end

section
/-! SUPPORT. A step that leaves a fault record: the state it leaves, the record, and the cause of each kind. -/

namespace Sys2Proof.Machine

variable {s t : State} {i : Instr} {kind : FaultKind} {r : FaultRecord}

/-- An instruction takes a fault only of its own kind, under that fault's condition (R228). -/
theorem takesFault_cases (h : takesFault s i kind) :
    (kind = .stackOverflow ∧ (∃ nnn, i = .call nnn) ∧ s.sp.val = 16) ∨
    (kind = .stackUnderflow ∧ i = .ret ∧ s.sp.val = 0) ∨
    (kind = .keyIndexFault ∧ ∃ x, (i = .skp x ∨ i = .sknp x) ∧ (s.reg x).toNat > 15) := by
  unfold takesFault at h
  split at h
  · next nnn => exact .inl ⟨rfl, ⟨nnn, rfl⟩, h⟩
  · exact .inr (.inl ⟨rfl, rfl, h⟩)
  · next x => exact .inr (.inr ⟨rfl, x, .inl rfl, h⟩)
  · next x => exact .inr (.inr ⟨rfl, x, .inr rfl, h⟩)
  · exact h.elim

/-- A step that leaves a fault record adds it to the state before the step and changes nothing else (R225): the word
decodes to nothing, or the instruction it decodes to takes the fault. -/
theorem step_fault_cases (h : step s = .next t) (ht : t.fault = some r) :
    (t = { s with fault := some r } ∧ r.opcode = s.fetchWord ∧ r.pc = s.pc) ∧
      ((r.kind = .decodeFault ∧ ∃ e, decodeWord s.fetchWord = .error e) ∨
       ∃ i, decodeWord s.fetchWord = .ok i ∧ takesFault s i r.kind) := by
  obtain ⟨hf, ⟨e, he, rfl⟩ | ⟨i, hi, hexec⟩⟩ := step_cases h
  · cases ht
    exact ⟨⟨rfl, rfl, rfl⟩, .inl ⟨rfl, e, he⟩⟩
  · rcases exec_fault_cases hexec with ⟨kind, htakes, rfl⟩ | hkeep
    · rw [State.advancePc_takeFault] at ht ⊢
      cases ht
      exact ⟨⟨rfl, encode_of_decodeWord hi, rfl⟩, .inr ⟨i, hi, htakes⟩⟩
    · rw [hkeep, State.advancePc_fault, hf] at ht
      cases ht

end Sys2Proof.Machine
end

section
/-! The invariant of a step and the faults a step can leave (60_exceptions R220 to R228). -/

namespace Sys2Proof.Machine

/-- Settles O3: memory stays canonical under every store, and each fault is taken under the condition of its kind. -/
theorem stepKeepsTheInvariant : Obligations.StepKeepsTheInvariant :=
  fun _ _ => step_inv

/-- Settles O17: taking a fault restores the state before the fetch, and the record it adds is the one found. -/
theorem aFaultingStepCommitsNothing : Obligations.AFaultingStepCommitsNothing :=
  fun _ _ _ _ hstep hr => (step_fault_cases hstep hr).1

/-- Settles O18: a word that decodes to nothing takes DecodeFault, and an instruction takes only its own fault. -/
theorem eachFaultHasItsOwnCause : Obligations.EachFaultHasItsOwnCause := by
  intro s t r _ hstep hr
  obtain ⟨-, ⟨hkind, e, he⟩ | ⟨i, hi, htakes⟩⟩ := step_fault_cases hstep hr
  · exact .inl ⟨hkind, fun i hi => by rw [he] at hi; cases hi⟩
  · rw [hi]
    rcases takesFault_cases htakes with ⟨hkind, ⟨nnn, rfl⟩, hsp⟩ | ⟨hkind, rfl, hsp⟩ | ⟨hkind, x, hx, hv⟩
    · exact .inr (.inl ⟨hkind, ⟨nnn, rfl⟩, hsp⟩)
    · exact .inr (.inr (.inl ⟨hkind, rfl, hsp⟩))
    · exact .inr (.inr (.inr ⟨hkind, x, hx.imp (congrArg _) (congrArg _), hv⟩))

end Sys2Proof.Machine
end

section
/-! SUPPORT. A multi-byte store as one update of `MEM` that depends on `FONT` and `MEM` alone. -/

namespace Sys2Proof.Machine

/-- Write bytes at `a`, `a + 1`, ... of `MEM`, each address reduced (R53). -/
def Memory.writeBytes (font : Vector Byte 80) (m : Memory) (a : Nat) : List Byte → Memory
  | [] => m
  | b :: bs => Memory.writeBytes font (Memory.write font m (memIndex a) b) (a + 1) bs

theorem State.storeBytes_eq (s : State) (a : Nat) (bs : List Byte) :
    s.storeBytes a bs = { s with mem := Memory.writeBytes s.font s.mem a bs } := by
  induction bs generalizing s a with
  | nil => rfl
  | cons b bs ih => exact ih (s.storeByte a b) (a + 1)

end Sys2Proof.Machine
end

section
/-! SUPPORT. Another count of draws: every operation but the draw itself does the same with it (R246). -/

namespace Sys2Proof.Machine

variable {s t : State} {i : Instr}

/-- The state with another count of draws. -/
def State.withDraws (s : State) (n : Nat) : State := { s with draws := n }

@[simp] theorem State.withDraws_reg (s : State) (n : Nat) (x : RegIdx) : (s.withDraws n).reg x = s.reg x := rfl

@[simp] theorem State.withDraws_highestKey (s : State) (n : Nat) : (s.withDraws n).highestKey = s.highestKey := rfl

theorem State.storeBytes_withDraws (s : State) (n a : Nat) (bs : List Byte) :
    (s.withDraws n).storeBytes a bs = (s.storeBytes a bs).withDraws n := by
  rw [State.storeBytes_eq, State.storeBytes_eq]
  rfl

theorem State.loadRegs_withDraws (s : State) (n a count : Nat) :
    (s.withDraws n).loadRegs a count = (s.loadRegs a count).withDraws n := by
  induction count with
  | zero => rfl
  | succ k ih =>
    simp only [State.loadRegs, ih]
    split <;> rfl

theorem State.skipIf_withDraws (s : State) (n : Nat) (c : Bool) :
    (s.withDraws n).skipIf c = (s.skipIf c).withDraws n := by
  cases c <;> rfl

theorem execRet_withDraws (n : Nat) (h : exec .ret s = .next t) : exec .ret (s.withDraws n) = .next (t.withDraws n) := by
  by_cases hsp : s.sp.val = 0
  · rw [exec_ret_of_empty hsp] at h
    cases h
    exact exec_ret_of_empty (s := s.withDraws n) hsp
  · obtain ⟨k, hk⟩ : ∃ k : Fin 16, s.sp.val = k.val + 1 :=
      ⟨⟨s.sp.val - 1, by omega⟩, (Nat.succ_pred hsp).symm⟩
    rw [exec_ret_of_eq_succ k hk] at h
    cases h
    exact exec_ret_of_eq_succ (s := s.withDraws n) k hk

theorem execCall_withDraws {nnn : Addr12} (n : Nat) (h : exec (.call nnn) s = .next t) :
    exec (.call nnn) (s.withDraws n) = .next (t.withDraws n) := by
  rcases Nat.lt_or_eq_of_le (Nat.le_of_lt_succ s.sp.isLt) with hlt | hfull
  · rw [exec_call_of_lt nnn hlt] at h
    cases h
    exact exec_call_of_lt (s := s.withDraws n) nnn hlt
  · rw [exec_call_of_full nnn hfull] at h
    cases h
    exact exec_call_of_full (s := s.withDraws n) nnn hfull

/-- An instruction other than CXNN does the same with another count of draws (R246). -/
theorem exec_withDraws (n : Nat) (hi : ∀ x nn, i ≠ .rnd x nn) (h : exec i s = .next t) :
    exec i (s.withDraws n) = .next (t.withDraws n) := by
  cases i with
  | rnd x nn => exact absurd rfl (hi x nn)
  | ret => exact execRet_withDraws n h
  | call nnn => exact execCall_withDraws n h
  | skp x | sknp x =>
    simp only [exec, execSkp, execSknp, State.withDraws_reg] at h ⊢
    split at h <;> cases h
    · rfl
    · exact congrArg _ (s.skipIf_withDraws n _)
  | ldVxK x =>
    simp only [exec, execLdVxK, State.withDraws_highestKey] at h ⊢
    split at h <;> cases h <;> rfl
  | seImm x nn | sneImm x nn | seReg x y | sneReg x y =>
    cases h
    exact congrArg _ (s.skipIf_withDraws n _)
  | ldB x =>
    cases h
    exact congrArg _ (s.storeBytes_withDraws n _ _)
  | ldMemI x =>
    cases h
    exact congrArg (fun u : State => Host.Outcome.next (u.setI (s.postIncI x))) (s.storeBytes_withDraws n _ _)
  | ldVxMemI x =>
    cases h
    exact congrArg (fun u : State => Host.Outcome.next (u.setI (s.postIncI x))) (s.loadRegs_withDraws n _ _)
  | _ => cases h; rfl

/-- Settles O27: no operation but the draw reads the count of draws or writes it. -/
theorem onlyRndUsesTheRandomSource : Obligations.OnlyRndUsesTheRandomSource :=
  fun _ _ _ n hi h => exec_withDraws n hi h

end Sys2Proof.Machine
end

section
/-! SUPPORT. The host's transactions, said once: what a `load`, a key setter and a tick answer. -/

namespace Sys2Proof.Machine

variable {s t : State}

theorem step_of_halted {r : FaultRecord} (h : s.fault = some r) : step s = .fault (.halted r) := by
  rw [step, h]

theorem stepTransaction_of_halted {r : FaultRecord} (h : s.fault = some r) :
    stepTransaction s = .next (s, .stepFault r) := by
  rw [stepTransaction, step_of_halted h]

theorem transact_load_of_le (s : State) {image : List Byte} (h : image.length ≤ Config.maxImage) :
    transact (.load image) s = .next (s.storeBytes Config.progBase image, .ok) := by
  simp only [transact, State.load, WellFormed.image, h, decide_true, if_true]

theorem transact_load_of_gt (s : State) {image : List Byte} (h : Config.maxImage < image.length) :
    transact (.load image) s = .next (s, .loadRejected .loadOverflow image.length) := by
  simp only [transact, State.load, WellFormed.image, Nat.not_le.2 h, decide_false, Bool.false_eq_true, if_false]

theorem keyTransaction_of_lt (s : State) (down : Bool) {k : Nat} (h : k < 16) :
    keyTransaction s k down = .next (s.setKey ⟨k, h⟩ down, .ok) := by
  rw [keyTransaction, State.keySetter, dif_pos h]

theorem keyTransaction_of_ge (s : State) (down : Bool) {k : Nat} (h : k ≥ 16) :
    keyTransaction s k down = .refused (.noSuchKey k) := by
  rw [keyTransaction, State.keySetter, dif_neg (Nat.not_lt.2 h)]

/-- The tick is the subtraction of naturals, which stops at 0 (R240). -/
theorem timerTick_toNat (b : Byte) : (timerTick b).toNat = b.toNat - 1 := by
  unfold timerTick
  split
  · next h => rw [h]; rfl
  · bv_omega

/-- A tick stops the tone exactly when it takes `ST` from 1 to 0 (R240). -/
theorem toneStop_iff (b : Byte) : b ≠ 0 ∧ timerTick b = 0 ↔ b = 1 := by
  have htick := timerTick_toNat b
  bv_omega

/-! ### `FAULT` is nothing to a transaction beside `step` -/

/-- The state with another content of `FAULT`. -/
def State.withFault (s : State) (f : Option FaultRecord) : State := { s with fault := f }

theorem State.storeBytes_withFault (s : State) (f : Option FaultRecord) (a : Nat) (bs : List Byte) :
    (s.withFault f).storeBytes a bs = (s.storeBytes a bs).withFault f := by
  rw [State.storeBytes_eq, State.storeBytes_eq]
  rfl

/-- A transaction other than `step` answers the same whatever `FAULT` holds, and keeps it (R226). -/
theorem transact_withFault {c : HostCall} {reply : HostReply} (f : Option FaultRecord) (hc : c ≠ .step)
    (h : transact c s = .next (t, reply)) : transact c (s.withFault f) = .next (t.withFault f, reply) := by
  cases c with
  | step => exact absurd rfl hc
  | load image =>
    rcases transact_load_cases h with ⟨hlen, rfl, rfl⟩ | ⟨hlen, rfl, rfl⟩
    · rw [transact_load_of_le _ hlen, State.storeBytes_withFault]
    · exact transact_load_of_gt _ hlen
  | keyPress k => obtain ⟨hk, rfl, rfl⟩ := keyTransaction_eq_next h; exact keyTransaction_of_lt _ true hk
  | keyRelease k => obtain ⟨hk, rfl, rfl⟩ := keyTransaction_eq_next h; exact keyTransaction_of_lt _ false hk
  | advanceTimers => cases h; rfl
  | readFramebuffer => cases h; rfl
  | readRedraw => cases h; rfl
  | ackRedraw => cases h; rfl

/-- A transaction other than `step` leaves `FAULT` alone. -/
theorem transact_fault_eq {c : HostCall} {reply : HostReply} (hc : c ≠ .step) (h : transact c s = .next (t, reply)) :
    t.fault = s.fault := by
  have hsame : transact c s = .next (t.withFault s.fault, reply) := transact_withFault s.fault hc h
  rw [h] at hsame
  have ht : t = t.withFault s.fault := congrArg Prod.fst (Host.Outcome.next.inj hsame)
  rw [ht]
  rfl

end Sys2Proof.Machine
end

section
/-! SUPPORT. The exported framebuffer as one list over the 2048 places of its pixels. -/

namespace Sys2Proof.Machine

/-- The place of a pixel in the export is the one whose row and column are the pixel's. -/
theorem framePlace_eq (x : Fin 64) (y : Fin 32) : y.val * 64 + x.val = (Fin.mkDivMod y x).val := by
  rw [Fin.coe_mkDivMod, Nat.mul_comm]

/-- Place `k` of the export is the pixel at column `k % 64` and row `k / 64` (R248). -/
theorem State.readFramebuffer_eq_ofFn (s : State) :
    s.readFramebuffer = List.ofFn fun k : Fin (32 * 64) => pixelColour (s.fb.pixel k.modNat k.divNat) := by
  simp only [List.ofFn_mul, framePlace_eq, Fin.eta, Fin.modNat_mkDivMod, Fin.divNat_mkDivMod, List.ofFn_eq_map]
  rfl

theorem State.readFramebuffer_length (s : State) : s.readFramebuffer.length = 2048 := by
  rw [State.readFramebuffer_eq_ofFn, List.length_ofFn]

theorem State.readFramebuffer_getElem? (s : State) (x : Fin 64) (y : Fin 32) :
    s.readFramebuffer[y.val * 64 + x.val]? = some (pixelColour (s.fb.pixel x y)) := by
  rw [State.readFramebuffer_eq_ofFn, framePlace_eq, List.getElem?_ofFn, dif_pos (Fin.mkDivMod y x).isLt]
  simp only [Fin.eta, Fin.modNat_mkDivMod, Fin.divNat_mkDivMod]

end Sys2Proof.Machine
end

section
/-! The host interface (60_exceptions R226, R240, R247 to R250): the halted core, ticks, key setters, the export and the
redraw handshake. -/

namespace Sys2Proof.Machine

/-- Settles O19: only `step` reads `FAULT`, and on a halted core it answers the record. -/
theorem aHaltedCoreStaysHalted : Obligations.AHaltedCoreStaysHalted := by
  intro s r hr
  refine ⟨step_of_halted hr, stepTransaction_of_halted hr, fun c t reply h => ?_, fun c t reply hc => ⟨?_, ?_⟩⟩
  · by_cases hc : c = .step
    · subst hc
      have hstep := (stepTransaction_of_halted hr).symm.trans h
      cases hstep
      exact hr
    · exact (transact_fault_eq hc h).trans hr
  · exact transact_withFault none hc
  · intro h
    have hs : (s.withFault none).withFault (some r) = s := by rw [← hr]; rfl
    rw [← hs]
    exact transact_withFault (t := t.withFault none) (some r) hc h

/-- Settles O54: the tick is an update of the timers, each of which goes down by 1 and stops at 0. -/
theorem tickCountsBothTimersDown : Obligations.TickCountsBothTimersDown :=
  fun s => ⟨_, _, rfl, timerTick_toNat s.dt, timerTick_toNat s.st, decide_eq_true_iff.trans (toneStop_iff s.st),
    s.onlyTimers_update _ _⟩

/-- Settles O55: by induction on the count, the first tick takes 1 off and the others the rest. -/
theorem ticksNeverGoBelowZero : Obligations.TicksNeverGoBelowZero := by
  intro n
  induction n with
  | zero => exact fun s => ⟨s, rfl, rfl, rfl⟩
  | succ n ih =>
    intro s
    obtain ⟨t, b, htick, hdt, hst, -, -⟩ := tickCountsBothTimersDown s
    obtain ⟨u, hrest, hudt, hust⟩ := ih t
    refine ⟨u, ?_, by omega, by omega⟩
    rw [List.replicate_succ, transactAll, htick]
    exact hrest

/-- Settles O57: below 16 each setter is a write of one entry of `KEYS`; from 16 on neither has a key to write. -/
theorem keySettersWriteOneKey : Obligations.KeySettersWriteOneKey :=
  fun _ s =>
    ⟨fun hk => ⟨_, _, keyTransaction_of_lt s true hk, keyTransaction_of_lt s false hk,
      fun j => s.keyDown_setKey _ j true, fun j => s.keyDown_setKey _ j false, rfl, rfl⟩,
     fun hk => ⟨keyTransaction_of_ge s true hk, keyTransaction_of_ge s false hk⟩⟩

/-- Settles O59: the export lists the pixels by their places, and each place is a column and a row. -/
theorem framebufferExportIsRowMajor : Obligations.FramebufferExportIsRowMajor :=
  fun s => ⟨_, rfl, s.readFramebuffer_length, fun x y => ⟨s.readFramebuffer_getElem? x y, rfl, rfl⟩⟩

/-- Settles O58: one transaction only reads `REDRAW`, the other only clears it. -/
theorem redrawHandshake : Obligations.RedrawHandshake :=
  fun _ => ⟨rfl, _, rfl, rfl, rfl⟩

end Sys2Proof.Machine
end

section
/-! SUPPORT. The two standstills of 70_reset: FX0A with no key pressed, and a jump to its own address. -/

namespace Sys2Proof.Machine

variable {s : State}

/-- The step back of FX0A undoes the fetch's increment (R83, R193). -/
@[simp] theorem State.rewindPc_advancePc (s : State) : s.advancePc.rewindPc = s := by
  simp only [State.rewindPc, State.advancePc, BitVec.add_sub_cancel]

/-- A jump to where the fetch began undoes the fetch's increment (R83, R121). -/
theorem State.setPc_advancePc_pc (s : State) : s.advancePc.setPc s.pc = s := rfl

/-- The word of 1NNN is its opcode digit above its target (R86). -/
theorem encode_jp_eq_or (nnn : Addr12) : encode (.jp nnn) = 0x1000#16 ||| zext16Addr nnn := by
  rw [encode, BitVec.append_def]
  rfl

/-- An address below 0x1000 is the 16-bit form of its low twelve bits (R9). -/
theorem zext16Addr_setWidth_of_lt {a : Word} (h : a.toNat < 0x1000) : zext16Addr (a.setWidth 12) = a := by
  refine BitVec.eq_of_toNat_eq ?_
  rw [zext16Addr_toNat, BitVec.toNat_setWidth, Nat.mod_eq_of_lt h]

/-- At a stop end the step is a jump to the address it was fetched from (R278). -/
theorem State.stopEnd.step_eq (h : s.stopEnd) : step s = .next s := by
  obtain ⟨hf, hlt, hword⟩ := h
  have hpc : zext16Addr (s.pc.setWidth 12) = s.pc := zext16Addr_setWidth_of_lt hlt
  have hjump : s.fetchWord = encode (.jp (s.pc.setWidth 12)) := by rw [encode_jp_eq_or, hpc, hword]
  have hdec : decodeWord s.fetchWord = .ok (.jp (s.pc.setWidth 12)) := hjump ▸ decodeWord_encode _
  rw [step_of_decodeWord_eq_ok hf hdec, exec, execJp, hpc, s.setPc_advancePc_pc]

/-- The `step` transaction on a running core whose step is a standstill answers `ok`. -/
theorem stepTransaction_of_standstill (hf : s.fault = none) (h : step s = .next s) :
    stepTransaction s = .next (s, .ok) := by
  simp only [stepTransaction, h, State.stepReply, hf]

/-- A transaction that leaves the state as it was does so any number of times. -/
theorem transactAll_replicate_of_standstill {c : HostCall} {reply : HostReply}
    (h : transact c s = .next (s, reply)) (n : Nat) : transactAll s (List.replicate n c) = .next s := by
  induction n with
  | zero => rfl
  | succ n ih => rw [List.replicate_succ, transactAll, h]; exact ih

/-- A step answers a halted core's record only (R226): a running core's step answers a next state. -/
theorem fault_eq_of_step_eq_halted {r : FaultRecord} (h : step s = .fault (.halted r)) : s.fault = some r := by
  cases hf : s.fault with
  | none =>
    obtain ⟨t, ht⟩ := stepOfARunningCoreAnswersNext s hf
    rw [ht] at h
    cases h
  | some r' =>
    rw [step_of_halted hf] at h
    cases h
    rfl

/-- The reply of a step is a fault record exactly when one is recorded (R33). -/
theorem State.faultEnd_iff_stepReply (t : State) : t.faultEnd ↔ ∃ r, t.stepReply = .stepFault r := by
  unfold State.faultEnd State.stepReply
  cases t.fault <;> simp

end Sys2Proof.Machine
end

section
/-! Loading, waiting and the ends of a run (70_reset R272, R276, R278). -/

namespace Sys2Proof.Machine

/-- Settles O47: with no key pressed FX0A only steps back, and that undoes the fetch. -/
theorem waitKeyWithNoKeyIsAStandstill : Obligations.WaitKeyWithNoKeyIsAStandstill := by
  intro x s hf hdec hup
  have hexec : exec (.ldVxK x) s.advancePc = .next s.advancePc.rewindPc := exec_ldVxK_of_none hup
  rw [step_of_decodeWord_eq_ok hf hdec, hexec, s.rewindPc_advancePc]

/-- Settles O56: an image that fits is a multi-byte store from 0x200 on, too short to wrap onto itself. -/
theorem loadCopiesOrRejects : Obligations.LoadCopiesOrRejects := by
  refine fun image s => ⟨fun hle => ?_, transact_load_of_gt s⟩
  refine ⟨_, transact_load_of_le s hle, fun k hk => ?_, s.storeBytes_i _ image, s.onlyMemoryAndI_storeBytes _ image⟩
  exact s.byteAt_storeBytes 0x200 k image (by omega) hk

/-- Settles O60: the reply is the fault the step left or the halted core's record, and a stop end's step is a
standstill. -/
theorem aStopEndIsFinal : Obligations.AStopEndIsFinal := by
  refine ⟨fun s t reply h => ?_, fun s n hstop => ?_⟩
  · rcases stepTransaction_cases h with ⟨-, rfl⟩ | ⟨rfl, r, hr, rfl⟩
    · exact t.faultEnd_iff_stepReply
    · exact iff_of_true (Option.ne_none_iff_exists'.2 ⟨r, fault_eq_of_step_eq_halted hr⟩) ⟨r, rfl⟩
  · have hstand : transact .step s = .next (s, .ok) := stepTransaction_of_standstill hstop.1 hstop.step_eq
    exact ⟨transactAll_replicate_of_standstill hstand n, hstand⟩

end Sys2Proof.Machine
end
